-- ==== Sys2Proof/Word.lean ====
section
/-! DEFINITION. The word and byte types: a 32-bit port and descriptor word (R74, R100), an 8-bit data byte (R44). -/

namespace Sys2Proof

/-- A 32-bit word: a register of the port (R38) or a word of the command descriptor (R100). -/
abbrev Word := BitVec 32

/-- One byte of a buffer or of the data register's payload (R44, R76). -/
abbrev Byte := BitVec 8

/-- A byte offset of the register port (R110, bits 7:0 of the selector). -/
abbrev Offset := BitVec 8

/-- A 9-bit port-access selector (R110): bit 8 the direction (1 = write), bits 7:0 the byte offset. -/
abbrev Selector := BitVec 9

end Sys2Proof
end

