-- ==== Sys2Proof/Syntax.lean ====
section
/-! DEFINITION. The fourteen instructions of spec/opcode_table.json (six host operations, eight port accesses), the host's
command descriptor and the port-access request they are decoded from, and the reasons a request is refused for. -/

namespace Sys2Proof

/-- One constructor per row of the opcode table. The six host operations carry the operands of R102 and R103; the eight
port accesses carry none: their selector is their whole encoding (R110) and their operands come from the datapath. -/
inductive Instr where
  /-- CALC (R150): `input_clock_hz`, `target_bus_hz`. -/
  | calculate (clk f : Word)
  /-- INIT (R151): `input_clock_hz`, `target_bus_hz`. -/
  | init (clk f : Word)
  /-- WRITE (R200): target address, `out_len`. -/
  | write (addr : BitVec 7) (outLen : Word)
  /-- READ (R201): target address, `in_len`. -/
  | read (addr : BitVec 7) (inLen : Word)
  /-- WRITE_READ (R202): target address, `out_len`, `in_len`. -/
  | writeRead (addr : BitVec 7) (outLen inLen : Word)
  /-- CLASSIFY (R241): a STATUS snapshot. -/
  | classify (snapshot : Word)
  /-- STATUS_RD (R210). -/
  | statusRd
  /-- DATA_RD (R211). -/
  | dataRd
  /-- CTRL_WR (R212). -/
  | ctrlWr
  /-- TIMING_WR (R213). -/
  | timingWr
  /-- STATUS_WR (R214). -/
  | statusWr
  /-- CLEAR_WR (R215). -/
  | clearWr
  /-- DATA_WR (R216). -/
  | dataWr
  /-- DELAY_WR (R217). -/
  | delayWr
deriving DecidableEq, Repr

/-- The numeric part of a command descriptor: exactly three 32-bit words (R100). -/
structure Descriptor where
  w0 : Word
  w1 : Word
  w2 : Word
deriving DecidableEq, Repr

/-- A port access as a model may be asked to perform it: a selector (R110) and a width in bytes (R74). -/
structure PortRequest where
  selector : Selector
  width : Nat
deriving DecidableEq, Repr

/-- What the decoder is given: the two formats CMD (R101) and PORT (R110) reach the block through different interfaces, the
host's command interface and the engine's own control sequence (log 4). -/
inductive Encoded where
  | cmd (d : Descriptor)
  | port (p : PortRequest)
deriving DecidableEq, Repr

/-- The closed set of reasons of a refusal (R259). -/
inductive RefuseReason where
  /-- `W0[7:0]` is not in the opcode map (R105 check 1). -/
  | unknownOperation
  /-- A must-be-zero bit or word of the descriptor is nonzero (R105 checks 2 to 4). -/
  | reservedFieldNonzero
  /-- A transaction issued while `cfg = none` (R181). -/
  | notConfigured
  /-- A port access whose selector, width or alignment the engine never issues (R74, R110). -/
  | unknownPortAccess
deriving DecidableEq, Repr

end Sys2Proof
end

