-- ==== Sys2Proof/Machine/State.lean ====
section
/-! DEFINITION. The state of the block as plain data: the engine's record (R31), the two buffers (R70), and the model's
inputs and outputs (the host's coming requests, the replies handed back, the environment's coming answers). -/

namespace Sys2Proof.Machine

/-- A byte buffer (R70): pairs of index and byte, indexes strictly rising, no listed byte equal to what an unlisted index
reads as (log 11). -/
abbrev Memory := List Host.Cell

/-- The control point (R32). -/
inductive ControlPoint where
  | idle
  | initT
  | initD
  | addrWait
  | addrProg
  | txPoll
  | txData
  | tcPoll
  | stopIssue
  | restartProg
  | rxPoll
  | rxData
  | abortClear
  | flushRead
  | flushDummy
  | flushTxe
  | done
deriving DecidableEq, Repr

/-- The operation in flight (R31). -/
inductive Op where
  | calculate
  | init
  | write
  | read
  | writeRead
  | classify
deriving DecidableEq, Repr

/-- The stopping condition (R37). -/
inductive Mode where
  | running
  | refused (r : RefuseReason)
deriving DecidableEq, Repr

/-- The document's errors "raised per call" (R251). -/
inductive TransactionError where
  | busError
  | arbitrationLost
  | notAcknowledge
  | lengthError
deriving DecidableEq, Repr

/-- The document's errors "raised only during initialization" (R251). -/
inductive ConfigError where
  | frequencyTooHigh
  | ratioOutOfRange
deriving DecidableEq, Repr

/-- The distinct reports of R140 and R251. -/
inductive Defect where
  | prescalerOutOfRange
  | fieldOverflow
  | zeroTargetFrequency
deriving DecidableEq, Repr

/-- `TimingParameters`, at the widths of R31. -/
structure TimingParameters where
  prescaler : BitVec 4
  lowPeriod : BitVec 8
  highPeriod : BitVec 8
  setupDelay : BitVec 8
  holdDelay : BitVec 8
deriving DecidableEq, Repr

/-- The result constructors (R251). -/
inductive Result where
  /-- `Ok(p)` of CALC and INIT. -/
  | okParams (p : TimingParameters)
  /-- `Ok` of a transaction. -/
  | ok
  | configErr (e : ConfigError)
  | err (e : TransactionError)
  | defect (d : Defect)
  /-- `Classified(k)`. -/
  | classified (k : Option TransactionError)
deriving DecidableEq, Repr

/-- A port event (R79): `Rd(off, v)` or `Wr(off, v)`. -/
inductive PortEvent where
  | rd (off : Offset) (v : Word)
  | wr (off : Offset) (v : Word)
deriving DecidableEq, Repr

/-- An operation the host issues: its descriptor and the buffers it hands over for the operation's duration (R100, R267). A
buffer the operation does not have is not looked at (log 13). -/
structure Request where
  descriptor : Descriptor
  outBuf : Memory
  inBuf : Memory
deriving DecidableEq, Repr

/-- What the host gets back at DONE (R250, R267): the result, and the input buffer of an operation that has one. -/
structure Reply where
  result : Result
  inBuf : Option Memory
deriving DecidableEq, Repr

/-- The state. The first thirteen fields are the record of R31, the next two the buffers of R70, the last four the model's
inputs and outputs (logs 1 to 3). -/
structure State where
  mode : Mode
  pc : ControlPoint
  op : Option Op
  addr : BitVec 7
  outLen : Nat
  inLen : Nat
  i : Nat
  j : Nat
  err : Option TransactionError
  params : Option TimingParameters
  cfg : Option TimingParameters
  result : Option Result
  hist : List PortEvent
  outBuf : Memory
  inBuf : Memory
  inbox : List Request
  delivered : List Reply
  env : List Word
  draws : Nat
deriving DecidableEq, Repr

/-- Why a step faults. The spec gives the block no fault (R258); these two are the model's own, for states no run reaches
(log 12), and both are safe. -/
inductive Fault where
  /-- Raised by DATA_WR at TX_DATA when `i` is no index of `OutBuf` (R76). Safe. -/
  | outBufIndex
  /-- Raised by DATA_RD at RX_DATA when `j` is no index of `InBuf` (R76). Safe. -/
  | inBufIndex
deriving DecidableEq, Repr

/-- Why the machine has no step. -/
inductive Refusal where
  /-- Raised by no instruction: every instruction has its meaning. Safe. -/
  | notModelled (mnemonic : String)
  /-- Raised by `step` when `mode = Refused(r)`: "the engine has no further step until reset" (R259, R37). Safe. -/
  | halted (r : RefuseReason)
  /-- Raised by `step` at IDLE when the host issues nothing: "the engine stays at IDLE with no step" (R180, R297). Safe. -/
  | noOperation
deriving DecidableEq, Repr

/-- The machine right after reset (R52, R290); the model's own fields as log 14 says. -/
def State.reset : State where
  mode := .running
  pc := .idle
  op := none
  addr := 0
  outLen := 0
  inLen := 0
  i := 0
  j := 0
  err := none
  params := none
  cfg := none
  result := none
  hist := []
  outBuf := []
  inBuf := []
  inbox := []
  delivered := []
  env := []
  draws := 0

end Sys2Proof.Machine
end

