-- ==== Sys2Proof/Machine/Memory.lean ====
section
/-! DEFINITION. Byte buffers in one canonical form, read and written by index (R70, R76). -/

namespace Sys2Proof.Machine

/-- What an index that no entry lists reads as (log 11). -/
def unlistedByte : Byte := 0

/-- The byte at index `a`. -/
def memRead : Memory → Nat → Byte
  | [], _ => unlistedByte
  | (b, v) :: rest, a => if a = b then v else memRead rest a

/-- `m` without an entry for index `a`. -/
def memErase : Memory → Nat → Memory
  | [], _ => []
  | (b, v) :: rest, a => if a = b then rest else (b, v) :: memErase rest a

/-- `m` with the entry `(a, v)`, in index order. -/
def memInsert : Memory → Nat → Byte → Memory
  | [], a, v => [(a, v)]
  | (b, w) :: rest, a, v =>
    if a < b then (a, v) :: (b, w) :: rest
    else if a = b then (a, v) :: rest
    else (b, w) :: memInsert rest a v

/-- Write byte `v` at index `a`; a byte equal to the unlisted one leaves no entry. -/
def memWrite (m : Memory) (a : Nat) (v : Byte) : Memory :=
  if v = unlistedByte then memErase m a else memInsert m a v

/-- Do the indexes rise strictly from `lo` up, with no entry equal to the unlisted byte? -/
def memSorted : Nat → Memory → Bool
  | _, [] => true
  | lo, (a, v) :: rest => decide (lo ≤ a) && decide (v ≠ unlistedByte) && memSorted (a + 1) rest

/-- The canonical form. -/
def Memory.wf (m : Memory) : Bool := memSorted 0 m

end Sys2Proof.Machine
end

