-- ==== Sys2Proof/Config.lean ====
section
/-! DEFINITION. The fixed parameters of the block (R9) and the two values the spec leaves OPEN: the environment's answers
and the base address. The open ones have no body: nothing can be proved about their values. -/

namespace Sys2Proof

/-- `F_MAX`: the largest accepted bus frequency in Hz (R9). -/
@[simp] abbrev Config.fMax : Int := 1000000

/-- `F_SM`: the top of the Standard regime, inclusive (R9, R10). -/
@[simp] abbrev Config.fStandard : Int := 100000

/-- `F_FM`: the top of the Fast regime, inclusive (R9, R10). -/
@[simp] abbrev Config.fFast : Int := 400000

/-- `RATIO_MIN` (R9). -/
@[simp] abbrev Config.ratioMin : Int := 4

/-- `SM_TICKS`: the Standard prescaler divisor (R9). -/
@[simp] abbrev Config.standardTicks : Int := 512

/-- `FM_TICKS`: the Fast prescaler divisor (R9). -/
@[simp] abbrev Config.fastTicks : Int := 384

/-- `SETUP_MIN` (R9). -/
@[simp] abbrev Config.setupMin : Int := 2

/-- `HOLD_MIN` (R9). -/
@[simp] abbrev Config.holdMin : Int := 4

/-- The largest legal buffer length, from `NBYTES_W` (R9, R182). -/
@[simp] abbrev Config.lengthMax : Nat := 255

/-- FREE VALUE, log 1: the `n`-th word the environment draws once the listed answers are used up (R80: "a draw: any 32-bit
value, under no law"). -/
opaque Config.envDraw : Nat → Word

/-- OPEN, log 17: `PORT_BASE`, the base address of the one peripheral instance (R73). No rule depends on its value. -/
opaque Config.portBase : Nat

end Sys2Proof
end

