-- ==== Sys2Proof/Machine/Flags.lean ====
section
/-! DEFINITION. The STATUS flags (R42), the ErrorClassifier (R240), and the flag changes the engine's writes request of the
environment (R43, R47). -/

namespace Sys2Proof.Machine

/-- TXE: "transmit register empty" (R42 bit 0). -/
def flagTxe (s : Word) : Bool := s.getLsbD 0
/-- TXIS: "about to transmit" (R42 bit 1). -/
def flagTxis (s : Word) : Bool := s.getLsbD 1
/-- RXNE: receive-not-empty (R42 bit 2). -/
def flagRxne (s : Word) : Bool := s.getLsbD 2
/-- NACKF: NACK-received (R42 bit 4). -/
def flagNackf (s : Word) : Bool := s.getLsbD 4
/-- STOPF: stop-detected (R42 bit 5); the engine never reads it (R46). -/
def flagStopf (s : Word) : Bool := s.getLsbD 5
/-- TC: transfer-complete (R42 bit 6). -/
def flagTc (s : Word) : Bool := s.getLsbD 6
/-- BERR: bus-error (R42 bit 8). -/
def flagBerr (s : Word) : Bool := s.getLsbD 8
/-- ARLO: arbitration-lost (R42 bit 9). -/
def flagArlo (s : Word) : Bool := s.getLsbD 9
/-- OVR: overrun (R42 bit 10); the engine never reads it (R46). -/
def flagOvr (s : Word) : Bool := s.getLsbD 10
/-- START_PENDING (R42 bit 14). -/
def flagStartPending (s : Word) : Bool := s.getLsbD 14

/-- The ErrorClassifier (R240): bus error, then arbitration loss, then NACK. -/
def classify (s : Word) : Option TransactionError :=
  if flagBerr s then some .busError
  else if flagArlo s then some .arbitrationLost
  else if flagNackf s then some .notAcknowledge
  else none

/-- The clearable flags: CLEAR bits NACKCF, STOPCF, BERRCF, ARLOCF and OVRCF, at the places of the STATUS bits they clear
(R43). -/
def clearableFlags : Word := 0x00000730

/-- The STATUS word after a CLEAR write of `mask` as the document describes it (R43): "A 1 clears the named flag; a 0 leaves it
unchanged". No step uses it: the next read is a free draw whatever was cleared (R80; log 19). -/
def requestedClear (mask status : Word) : Word := status &&& ~~~(mask &&& clearableFlags)

/-- The STATUS word after a dummy DATA write as the document describes it (R47): TXIS is cleared. No step uses it (log 19). -/
def requestedDummy (status : Word) : Word := status &&& ~~~0x00000002

/-- The STATUS word after a STATUS write of `v` as this spec reads it (R42, R47, R214): writing 1 to TXE flushes the transmit
path, which then reports empty; writing 0 there has no effect. No step uses it (log 19). -/
def requestedFlush (v status : Word) : Word := if flagTxe v then status ||| 0x00000001 else status

end Sys2Proof.Machine
end

