-- ==== Sys2Proof/Machine/Operands.lean ====
section
/-! DEFINITION. Register offsets and selectors (R38, R110), the words the engine writes (R107 to R109, R198), and the operand
each port access takes from the datapath. -/

namespace Sys2Proof.Machine

/-- CTRL, the transfer-control register (R38, R41). -/
def ctrlOff : Offset := 0x04
/-- TIMING, the configuration register of prescaler and periods (R38, R39). -/
def timingOff : Offset := 0x10
/-- STATUS (R38, R42). -/
def statusOff : Offset := 0x18
/-- CLEAR, the flag-clear register (R38, R43). -/
def clearOff : Offset := 0x1C
/-- DATA (R38, R44). -/
def dataOff : Offset := 0x24
/-- DELAY, the configuration register of the delays (R38, R40). -/
def delayOff : Offset := 0x2C

/-- The selector of an event: bit 8 the direction, bits 7:0 the offset (R110). -/
def PortEvent.selector : PortEvent → Selector
  | .rd off _ => off.setWidth 9
  | .wr off _ => off.setWidth 9 ||| 0x100#9

/-- The address an access of the register at `off` reaches (R73, R38): `PORT_BASE + off`. -/
def portAddress (off : Offset) : Nat := Config.portBase + off.toNat

/-- The selector the control point issues (R110, column "issued at control point"); IDLE and DONE issue none. -/
def issuedSelector : ControlPoint → Option Selector
  | .idle => none
  | .initT => some 0x110
  | .initD => some 0x12C
  | .addrWait => some 0x018
  | .addrProg => some 0x104
  | .txPoll => some 0x018
  | .txData => some 0x124
  | .tcPoll => some 0x018
  | .stopIssue => some 0x104
  | .restartProg => some 0x104
  | .rxPoll => some 0x018
  | .rxData => some 0x024
  | .abortClear => some 0x11C
  | .flushRead => some 0x018
  | .flushDummy => some 0x124
  | .flushTxe => some 0x118
  | .done => none

/-- Byte lane `k` of a register, little-endian: bits `8k+7 : 8k` (R75). -/
def byteLane (v : Word) (k : Nat) : Byte := v.extractLsb' (8 * k) 8

/-- The data byte of a DATA read: bits 7:0 (R44, R192). -/
def dataByte (v : Word) : Byte := byteLane v 0

/-- The DATA word that carries a byte: the byte in bits 7:0, bits 31:8 zero (R44). -/
def dataWord (b : Byte) : Word := b.setWidth 32

/-- A bit as a word, for the one-bit arguments of `ctrlWord`. -/
def bitWord (b : Bool) : Word := if b then 1 else 0

/-- `timing_word(p)` (R107). -/
def timingWord (p : TimingParameters) : Word :=
  (p.prescaler.setWidth 32 <<< 28) ||| (p.highPeriod.setWidth 32 <<< 8) ||| p.lowPeriod.setWidth 32

/-- `delay_word(p)` (R107). -/
def delayWord (p : TimingParameters) : Word :=
  (p.holdDelay.setWidth 32 <<< 8) ||| p.setupDelay.setWidth 32

/-- `ctrl_word(start, addr, rd, n, autoend, stop)` (R108). -/
def ctrlWord (start : Bool) (addr : BitVec 7) (rd : Bool) (n : BitVec 8) (autoend stop : Bool) : Word :=
  (addr.setWidth 32 <<< 1) ||| (bitWord rd <<< 10) ||| (bitWord start <<< 13) ||| (bitWord stop <<< 14) |||
    (n.setWidth 32 <<< 16) ||| (bitWord autoend <<< 25)

/-- The 8-bit NBYTES argument of a length (R41); a length that has passed R182 is at most 255. -/
def byteCount (n : Nat) : BitVec 8 := BitVec.ofNat 8 n

/-- The START of a write phase (R185): direction write, AUTOEND off. -/
def startWriteWord (addr : BitVec 7) (outLen : Nat) : Word := ctrlWord true addr false (byteCount outLen) false false

/-- The START or repeated START of a read phase (R185, R190): direction read, AUTOEND on. -/
def startReadWord (addr : BitVec 7) (inLen : Nat) : Word := ctrlWord true addr true (byteCount inLen) true false

/-- The explicit STOP (R189). -/
def stopWord : Word := ctrlWord false 0 false 0 false true

/-- `CLR_BERR` (R109). -/
def clrBerr : Word := 0x00000100
/-- `CLR_ARLO` (R109). -/
def clrArlo : Word := 0x00000200
/-- `CLR_NACK`: NACKCF and STOPCF together (R109). -/
def clrNack : Word := 0x00000030
/-- `TXE_FLUSH`, the one STATUS word the engine writes (R109). -/
def txeFlush : Word := 0x00000001
/-- The dummy DATA word (R109). -/
def dummyWord : Word := 0x00000000

/-- The operand of CTRL_WR and the control point after it, by control point and operation (R185, R189, R190, R198). -/
def ctrlOperand (s : State) : Option (Word × ControlPoint) :=
  match s.pc, s.op with
  | .addrProg, some .write => some (startWriteWord s.addr s.outLen, .txPoll)
  | .addrProg, some .writeRead => some (startWriteWord s.addr s.outLen, .txPoll)
  | .addrProg, some .read => some (startReadWord s.addr s.inLen, .rxPoll)
  | .stopIssue, _ => some (stopWord, .done)
  | .restartProg, _ => some (startReadWord s.addr s.inLen, .rxPoll)
  | _, _ => none

/-- The CLEAR word of an abort kind (R195). LengthError is no abort kind. -/
def clearOperand : TransactionError → Option Word
  | .busError => some clrBerr
  | .arbitrationLost => some clrArlo
  | .notAcknowledge => some clrNack
  | .lengthError => none

end Sys2Proof.Machine
end

