-- ==== Sys2Proof/Machine/Ops.lean ====
section
/-! DEFINITION. The operations the engine's steps share: port reads and writes (R13, R79, R80), buffer accesses (R76), refusal
(R259), completion, the abort (R194, R255) and the return (R197). -/

namespace Sys2Proof.Machine

/-- The environment's next answer (R80): the next listed word, or past the end of the list the next free value (log 1). -/
def draw (s : State) : Word :=
  match s.env with
  | v :: _ => v
  | [] => Config.envDraw s.draws

/-- The environment's `n`-th coming answer, counted from 0: `draw` after `n` more reads (R80; log 1). -/
def comingAnswer (s : State) (n : Nat) : Word :=
  match s.env[n]? with
  | some v => v
  | none => Config.envDraw (s.draws + n)

/-- The state after `PortRead(off)`, whose value is `draw s` (R13, R79, R210, R211): one event, one draw used. -/
def portRead (off : Offset) (s : State) : State :=
  { s with hist := s.hist ++ [.rd off (draw s)], env := s.env.tail, draws := s.draws + 1 }

/-- The state after `PortWrite(off, v)` (R13, R79): one event. -/
def portWrite (off : Offset) (v : Word) (s : State) : State :=
  { s with hist := s.hist ++ [.wr off v] }

/-- `raise Refuse(r)` (R259): the mode changes and nothing else does. -/
def refuse (r : RefuseReason) (s : State) : State := { s with mode := .refused r }

/-- `result <- r ; pc <- DONE`. -/
def complete (r : Result) (s : State) : State := { s with result := some r, pc := .done }

/-- Taking an abort (R194, R255): "It saves exactly one piece of state: the error kind, in `err`", and control goes to
ABORT_CLEAR. -/
def takeAbort (e : TransactionError) (s : State) : State := { s with err := some e, pc := .abortClear }

/-- What a poll does with the one snapshot `v` it read (R193): an abort first, and only then the awaited flag. `t` is the state
after the read. -/
def poll (v : Word) (awaited : Bool) (ready stay : ControlPoint) (t : State) : State :=
  match classify v with
  | some e => takeAbort e t
  | none => { t with pc := if awaited then ready else stay }

/-- The control points that poll (R81): ADDR_WAIT and the three data and completion polls. -/
def isPoll : ControlPoint → Bool
  | .addrWait | .txPoll | .tcPoll | .rxPoll => true
  | .idle | .initT | .initD | .addrProg | .txData | .stopIssue | .restartProg | .rxData | .abortClear | .flushRead
  | .flushDummy | .flushTxe | .done => false

/-- Does the STATUS answer `v` end the polling at this control point (R81)? At ADDR_WAIT: START_PENDING = 0; at the others: an
abort flag or the awaited flag. -/
def pollEnds (p : ControlPoint) (v : Word) : Bool :=
  match p with
  | .addrWait => !flagStartPending v
  | .txPoll => (classify v).isSome || flagTxe v
  | .tcPoll => (classify v).isSome || flagTc v
  | .rxPoll => (classify v).isSome || flagRxne v
  | .idle | .initT | .initD | .addrProg | .txData | .stopIssue | .restartProg | .rxData | .abortClear | .flushRead
  | .flushDummy | .flushTxe | .done => false

/-- Has the operation an output buffer (R102)? -/
def Op.hasOut : Op → Bool
  | .write => true
  | .writeRead => true
  | .calculate => false
  | .init => false
  | .read => false
  | .classify => false

/-- Has the operation an input buffer (R102)? -/
def Op.hasIn : Op → Bool
  | .read => true
  | .writeRead => true
  | .calculate => false
  | .init => false
  | .write => false
  | .classify => false

/-- The input buffer the host gets back (R267). -/
def returnedBuffer (s : State) : Option Memory :=
  match s.op with
  | some op => if op.hasIn then some s.inBuf else none
  | none => none

/-- The replies handed over at DONE: exactly one where there is a result (R250; log 23). -/
def replies (s : State) : List Reply :=
  match s.result with
  | some r => [⟨r, returnedBuffer s⟩]
  | none => []

/-- The return, DONE (R197, R256): the result is handed to the host, `op`, `err` and `params` are cleared, and control is at
IDLE. -/
def finish (s : State) : State :=
  { s with delivered := s.delivered ++ replies s, op := none, err := none, params := none, pc := .idle }

/-- A legal buffer length (R182). -/
def lengthOk (n : Nat) : Bool := decide (1 ≤ n) && decide (n ≤ Config.lengthMax)

/-- The length precondition (R182): output length first, then input length. -/
def lengthsOk (op : Op) (outLen inLen : Nat) : Bool :=
  if op.hasOut && !lengthOk outLen then false
  else if op.hasIn && !lengthOk inLen then false
  else true

/-- The result of a failed length precondition (R182); no byte has been moved, so `i = j = 0` (R208; log 8). -/
def failLength (s : State) : State := complete (.err .lengthError) { s with i := 0, j := 0 }

/-- Transaction setup (R183). -/
def setupTransaction (addr : BitVec 7) (outLen inLen : Nat) (s : State) : State :=
  { s with addr := addr, outLen := outLen, inLen := inLen, i := 0, j := 0, err := none, pc := .addrWait }

/-- Dispatch of a transaction (R180 to R183): the configuration check, the length check, the setup. -/
def startTransaction (op : Op) (addr : BitVec 7) (outLen inLen : Nat) (s : State) : State :=
  let t := { s with op := some op }
  if s.cfg = none then refuse .notConfigured t
  else if lengthsOk op outLen inLen then setupTransaction addr outLen inLen t
  else failLength t

/-- What was last written to the register at `off`, read off the history: a view of the peripheral register surface (R38 to
R44). `none` where the block has written nothing since reset: the register's value is then unspecified (R53). -/
def lastWrite (off : Offset) : List PortEvent → Option Word
  | [] => none
  | .rd _ _ :: rest => lastWrite off rest
  | .wr o v :: rest =>
    match lastWrite off rest with
    | some w => some w
    | none => if o = off then some v else none

/-- The three words of a result (R252). R252 has no row for `Classified(LengthError)`, which the classifier never returns
(R242 (d)): RCODE 0x13 for it is a DESIGN CHOICE (log 24). -/
def Result.words : Result → Word × Word × Word
  | .okParams p => (0x00, timingWord p, delayWord p)
  | .ok => (0x00, 0, 0)
  | .configErr .frequencyTooHigh => (0x01, 0, 0)
  | .configErr .ratioOutOfRange => (0x02, 0, 0)
  | .err .busError => (0x10, 0, 0)
  | .err .arbitrationLost => (0x11, 0, 0)
  | .err .notAcknowledge => (0x12, 0, 0)
  | .err .lengthError => (0x13, 0, 0)
  | .defect .prescalerOutOfRange => (0x20, 0, 0)
  | .defect .fieldOverflow => (0x21, 0, 0)
  | .defect .zeroTargetFrequency => (0x22, 0, 0)
  | .classified none => (0x00, 0, 0)
  | .classified (some .busError) => (0x10, 0, 0)
  | .classified (some .arbitrationLost) => (0x11, 0, 0)
  | .classified (some .notAcknowledge) => (0x12, 0, 0)
  | .classified (some .lengthError) => (0x13, 0, 0)

end Sys2Proof.Machine
end

