-- ==== Sys2Proof/Machine/Timing.lean ====
section
/-! DEFINITION. The TimingCalculator (R140 to R148), over the integers (R12), narrowed to the fields' widths only after the
range checks. -/

namespace Sys2Proof.Machine

/-- `CalcOutcome` (R140). -/
inductive CalcOutcome where
  | ok (p : TimingParameters)
  | configErr (e : ConfigError)
  | defect (d : Defect)
deriving DecidableEq, Repr

/-- The five fields before post-processing, as integers: `hold` may be -1 here (R144, R146). -/
structure RawTiming where
  prescaler : Int
  low : Int
  high : Int
  setup : Int
  hold : Int
deriving DecidableEq, Repr

/-- `ceil_div(a, b)` (R12). -/
def ceilDiv (a b : Int) : Int := (a + b - 1) / b

/-- `clamp(v, lo, hi)` (R12). -/
def clampInt (v lo hi : Int) : Int := min (max v lo) hi

/-- The Standard prescaler (R143). -/
def standardPrescaler (ratio : Int) : Int := clampInt (ceilDiv ratio Config.standardTicks - 1) 0 15

/-- The Standard half period (R143). -/
def standardHalf (ratio : Int) : Int := (ratio / (standardPrescaler ratio + 1) - 2) / 2

/-- The Standard regime's fields, delays included (R143, R144). -/
def standardRaw (clk ratio : Int) : RawTiming where
  prescaler := standardPrescaler ratio
  low := standardHalf ratio
  high := standardHalf ratio
  setup := clk / 2000000 / (standardPrescaler ratio + 1)
  hold := clk / 800000 / (standardPrescaler ratio + 1) - 1

/-- The Fast and Fast-plus prescaler (R145): no clamp. -/
def fastPrescaler (ratio : Int) : Int := (ratio - 1) / Config.fastTicks

/-- The Fast and Fast-plus high period (R145). -/
def fastHigh (ratio : Int) : Int := (ratio / (fastPrescaler ratio + 1) - 3) / 3

/-- The Fast and Fast-plus regimes' fields, delays included (R145, R146). -/
def fastRaw (clk f ratio : Int) : RawTiming where
  prescaler := fastPrescaler ratio
  low := 2 * (fastHigh ratio + 1)
  high := fastHigh ratio
  setup := if f > Config.fFast then 0 else clk / 8000000 / (fastPrescaler ratio + 1)
  hold :=
    if f > Config.fFast then clk / 4000000 / (fastPrescaler ratio + 1) - 1
    else clk / 2000000 / (fastPrescaler ratio + 1) - 1

/-- The record stored once every field has passed its range check (R12, R147). -/
def RawTiming.narrow (r : RawTiming) : TimingParameters where
  prescaler := BitVec.ofInt 4 r.prescaler
  lowPeriod := BitVec.ofInt 8 r.low
  highPeriod := BitVec.ofInt 8 r.high
  setupDelay := BitVec.ofInt 8 r.setup
  holdDelay := BitVec.ofInt 8 r.hold

/-- The two clamps of R147. -/
def RawTiming.clamped (r : RawTiming) : RawTiming :=
  { r with setup := max r.setup Config.setupMin, hold := max r.hold Config.holdMin }

/-- The checks of R147, on the clamped fields. -/
def checkFields (r : RawTiming) : CalcOutcome :=
  if r.prescaler ≥ 16 then .defect .prescalerOutOfRange
  else if r.low > 255 ∨ r.high > 255 ∨ r.setup > 255 ∨ r.hold > 255 then .defect .fieldOverflow
  else .ok r.narrow

/-- Post-processing (R147): the clamps, then the checks. -/
def postProcess (r : RawTiming) : CalcOutcome := checkFields r.clamped

/-- The regimes of R148 step 3, for a ratio that has passed R142. -/
def timingByRatio (clk f ratio : Int) : CalcOutcome :=
  if f ≤ Config.fStandard then
    if standardHalf ratio ≥ 256 then .configErr .frequencyTooHigh else postProcess (standardRaw clk ratio)
  else postProcess (fastRaw clk f ratio)

/-- The calculator on integers, in the order of R148. -/
def timingCalcInt (clk f : Int) : CalcOutcome :=
  if f > Config.fMax then .configErr .frequencyTooHigh
  else if f = 0 then .defect .zeroTargetFrequency
  else if clk / f < Config.ratioMin then .configErr .ratioOutOfRange
  else timingByRatio clk f (clk / f)

/-- `timing_calc(clk, f)` (R140), both inputs unsigned 32-bit. -/
def timingCalc (clk f : Word) : CalcOutcome := timingCalcInt (clk.toNat : Int) (f.toNat : Int)

/-- The outcome as an operation's result (R251). -/
def CalcOutcome.toResult : CalcOutcome → Result
  | .ok p => .okParams p
  | .configErr e => .configErr e
  | .defect d => .defect d

end Sys2Proof.Machine
end

