-- ==== Sys2Proof/Machine/Command.lean ====
section
/-! DEFINITION. The six host operations: the engine step at IDLE that dispatches each (R180). -/

namespace Sys2Proof.Machine

/-- CALC (R150): the outcome of the calculator is the result; no port access. -/
def execCalc (clk f : Word) (s : State) : Host.Outcome State Fault Refusal :=
  .next (complete (timingCalc clk f).toResult { s with op := some .calculate })

/-- INIT (R151): on Ok the parameters go to `params` and control to INIT_T; otherwise the outcome is the result. -/
def execInit (clk f : Word) (s : State) : Host.Outcome State Fault Refusal :=
  match timingCalc clk f with
  | .ok p => .next { s with op := some .init, params := some p, pc := .initT }
  | .configErr e => .next (complete (.configErr e) { s with op := some .init })
  | .defect d => .next (complete (.defect d) { s with op := some .init })

/-- WRITE (R200, R180 to R183). -/
def execWrite (addr : BitVec 7) (outLen : Word) (s : State) : Host.Outcome State Fault Refusal :=
  .next (startTransaction .write addr outLen.toNat 0 s)

/-- READ (R201, R180 to R183). -/
def execRead (addr : BitVec 7) (inLen : Word) (s : State) : Host.Outcome State Fault Refusal :=
  .next (startTransaction .read addr 0 inLen.toNat s)

/-- WRITE_READ (R202, R180 to R183). -/
def execWriteRead (addr : BitVec 7) (outLen inLen : Word) (s : State) : Host.Outcome State Fault Refusal :=
  .next (startTransaction .writeRead addr outLen.toNat inLen.toNat s)

/-- CLASSIFY (R241): the classification of the host's snapshot is the result; no port access. -/
def execClassify (snapshot : Word) (s : State) : Host.Outcome State Fault Refusal :=
  .next (complete (.classified (classify snapshot)) { s with op := some .classify })

end Sys2Proof.Machine
end

