-- ==== Sys2Proof/Machine/Port.lean ====
section
/-! DEFINITION. The eight port accesses (R210 to R217), each with the decision of the control point that issues it (R152, R184
to R196). An access at a control point that does not issue it has no operand and no meaning: it is refused with
UnknownPortAccess (R74, R110, R259; log 7). -/

namespace Sys2Proof.Machine

/-- STATUS_RD (R210), issued at ADDR_WAIT (R184), TX_POLL (R186), TC_POLL (R188), RX_POLL (R191) and FLUSH_READ (R196). -/
def execStatusRd (s : State) : Host.Outcome State Fault Refusal :=
  let v := draw s
  let t := portRead statusOff s
  match s.pc with
  | .addrWait => .next { t with pc := if flagStartPending v then .addrWait else .addrProg }
  | .txPoll => .next (poll v (flagTxe v) .txData .txPoll t)
  | .tcPoll => .next (poll v (flagTc v) (if s.op = some .write then .stopIssue else .restartProg) .tcPoll t)
  | .rxPoll => .next (poll v (flagRxne v) .rxData .rxPoll t)
  | .flushRead => .next { t with pc := if flagTxis v then .flushDummy else .flushTxe }
  | _ => .next (refuse .unknownPortAccess s)

/-- DATA_RD (R211), issued at RX_DATA (R192). -/
def execDataRd (s : State) : Host.Outcome State Fault Refusal :=
  match s.pc with
  | .rxData =>
    if s.j < s.inLen then
      let t := { portRead dataOff s with inBuf := memWrite s.inBuf s.j (dataByte (draw s)), j := s.j + 1 }
      .next (if s.j + 1 = s.inLen then complete .ok t else { t with pc := .rxPoll })
    else .fault .inBufIndex
  | _ => .next (refuse .unknownPortAccess s)

/-- CTRL_WR (R212), issued at ADDR_PROG (R185), STOP_ISSUE (R189) and RESTART_PROG (R190). STOP_ISSUE also completes the
operation with Ok. -/
def execCtrlWr (s : State) : Host.Outcome State Fault Refusal :=
  match ctrlOperand s with
  | some (v, .done) => .next (complete .ok (portWrite ctrlOff v s))
  | some (v, p) => .next { portWrite ctrlOff v s with pc := p }
  | none => .next (refuse .unknownPortAccess s)

/-- TIMING_WR (R213), issued at INIT_T (R152). -/
def execTimingWr (s : State) : Host.Outcome State Fault Refusal :=
  match s.pc, s.params with
  | .initT, some p => .next { portWrite timingOff (timingWord p) s with pc := .initD }
  | _, _ => .next (refuse .unknownPortAccess s)

/-- STATUS_WR (R214), issued at FLUSH_TXE (R196). -/
def execStatusWr (s : State) : Host.Outcome State Fault Refusal :=
  match s.pc with
  | .flushTxe => .next (complete (.err .notAcknowledge) (portWrite statusOff txeFlush s))
  | _ => .next (refuse .unknownPortAccess s)

/-- CLEAR_WR (R215), issued at ABORT_CLEAR (R195): a bus error or arbitration loss ends the operation, a NACK goes on to the
flush. -/
def execClearWr (s : State) : Host.Outcome State Fault Refusal :=
  match s.pc, s.err with
  | .abortClear, some e =>
    match clearOperand e with
    | some v =>
      .next (if e = .notAcknowledge then { portWrite clearOff v s with pc := .flushRead }
        else complete (.err e) (portWrite clearOff v s))
    | none => .next (refuse .unknownPortAccess s)
  | _, _ => .next (refuse .unknownPortAccess s)

/-- DATA_WR (R216), issued at TX_DATA (R187) with byte `i` of `OutBuf` and at FLUSH_DUMMY (R196) with the dummy word. -/
def execDataWr (s : State) : Host.Outcome State Fault Refusal :=
  match s.pc with
  | .txData =>
    if s.i < s.outLen then
      .next { portWrite dataOff (dataWord (memRead s.outBuf s.i)) s with
        i := s.i + 1, pc := if s.i + 1 = s.outLen then .tcPoll else .txPoll }
    else .fault .outBufIndex
  | .flushDummy => .next (complete (.err .notAcknowledge) (portWrite dataOff dummyWord s))
  | _ => .next (refuse .unknownPortAccess s)

/-- DELAY_WR (R217), issued at INIT_D (R152): the second configuration write, after which `cfg` and the result are set. -/
def execDelayWr (s : State) : Host.Outcome State Fault Refusal :=
  match s.pc, s.params with
  | .initD, some p =>
    .next (complete (.okParams p) { portWrite delayOff (delayWord p) s with cfg := some p, params := none })
  | _, _ => .next (refuse .unknownPortAccess s)

end Sys2Proof.Machine
end

