-- ==== Sys2Proof/Machine/Dispatch.lean ====
section
/-! DEFINITION. One arm per instruction. -/

namespace Sys2Proof.Machine

/-- The meaning of an instruction at a state. -/
def exec (i : Instr) (s : State) : Host.Outcome State Fault Refusal :=
  match i with
  | .calculate clk f => Sys2Proof.Machine.execCalc clk f s
  | .init clk f => Sys2Proof.Machine.execInit clk f s
  | .write addr outLen => Sys2Proof.Machine.execWrite addr outLen s
  | .read addr inLen => Sys2Proof.Machine.execRead addr inLen s
  | .writeRead addr outLen inLen => Sys2Proof.Machine.execWriteRead addr outLen inLen s
  | .classify snapshot => Sys2Proof.Machine.execClassify snapshot s
  | .statusRd => Sys2Proof.Machine.execStatusRd s
  | .dataRd => Sys2Proof.Machine.execDataRd s
  | .ctrlWr => Sys2Proof.Machine.execCtrlWr s
  | .timingWr => Sys2Proof.Machine.execTimingWr s
  | .statusWr => Sys2Proof.Machine.execStatusWr s
  | .clearWr => Sys2Proof.Machine.execClearWr s
  | .dataWr => Sys2Proof.Machine.execDataWr s
  | .delayWr => Sys2Proof.Machine.execDelayWr s

end Sys2Proof.Machine
end

