-- ==== Sys2Proof/WellFormed.lean ====
section
/-! DEFINITION. The four checks a command descriptor must pass (R105) and the one a port access must pass (R74, R110), each
as a check of its own over the numbers of the request. An `Instr` needs no check: its operands have the widths of R103, so
that an address above 0x7F cannot be expressed. -/

namespace Sys2Proof

/-- Check 1 of R105: the OP, `W0[7:0]`, is listed in the opcode map (R104). -/
def Descriptor.opListed (d : Descriptor) : Bool :=
  [0x01, 0x02, 0x10, 0x11, 0x12, 0x20].contains (d.w0.toNat % 256)

/-- Check 2 of R105: `W0[31:15]` is zero. -/
def Descriptor.reservedZero (d : Descriptor) : Bool :=
  d.w0.toNat / 32768 == 0

/-- Check 3 of R105: for CALC, INIT and CLASSIFY, `W0[14:8]` is zero. -/
def Descriptor.addressAllowed (d : Descriptor) : Bool :=
  [0x10, 0x11, 0x12].contains (d.w0.toNat % 256) || d.w0.toNat / 256 % 128 == 0

/-- Check 4 of R105: the operand words that R102 marks "must be 0" are zero: W2 of WRITE and CLASSIFY, W1 of READ. -/
def Descriptor.operandsAllowed (d : Descriptor) : Bool :=
  match d.w0.toNat % 256 with
  | 0x10 => d.w2.toNat == 0
  | 0x11 => d.w1.toNat == 0
  | 0x20 => d.w2.toNat == 0
  | _ => true

/-- A descriptor that selects one of the six operations (R105). -/
def Descriptor.wellFormed (d : Descriptor) : Bool :=
  d.opListed && d.reservedZero && d.addressAllowed && d.operandsAllowed

/-- A port access the engine issues: one of the eight selectors of R110, four bytes wide (R74). -/
def PortRequest.wellFormed (p : PortRequest) : Bool :=
  p.width == 4 && [0x018, 0x024, 0x104, 0x110, 0x118, 0x11C, 0x124, 0x12C].contains p.selector.toNat

/-- Well-formedness of either format. -/
def Encoded.wellFormed : Encoded → Bool
  | .cmd d => d.wellFormed
  | .port p => p.wellFormed

end Sys2Proof
end

