-- ==== Sys2Proof/Decode.lean ====
section
/-! DEFINITION. The decoder, total on every descriptor and every port access and rejecting by name (R105, R110), and the
encoder written from the same tables (R101 to R104, R110). -/

namespace Sys2Proof

/-- `W0[7:0]`, the operation selector (R101). -/
def opField (w0 : Word) : BitVec 8 := w0.extractLsb' 0 8

/-- `W0[14:8]`, the 7-bit target address (R101, R103). -/
def addrField (w0 : Word) : BitVec 7 := w0.extractLsb' 8 7

/-- `W0[31:15]`, reserved, must be 0 (R101). -/
def reservedField (w0 : Word) : BitVec 17 := w0.extractLsb' 15 17

/-- The descriptor's operand checks and operands, by OP: checks 1, 3 and 4 of R105 in that order, with the operand words of
R102. `.reservedFieldNonzero` answers a nonzero must-be-zero field. -/
def decodeOperation (op : BitVec 8) (addr : BitVec 7) (w1 w2 : Word) : Except RefuseReason Instr :=
  match op.toNat with
  | 0x01 => if addr = 0 then .ok (.calculate w1 w2) else .error .reservedFieldNonzero
  | 0x02 => if addr = 0 then .ok (.init w1 w2) else .error .reservedFieldNonzero
  | 0x10 => if w2 = 0 then .ok (.write addr w1) else .error .reservedFieldNonzero
  | 0x11 => if w1 = 0 then .ok (.read addr w2) else .error .reservedFieldNonzero
  | 0x12 => .ok (.writeRead addr w1 w2)
  | 0x20 => if addr = 0 ∧ w2 = 0 then .ok (.classify w1) else .error .reservedFieldNonzero
  | _ => .error .unknownOperation

/-- Is this OP in the opcode map of R104? -/
def opKnown (op : BitVec 8) : Bool :=
  op == 0x01#8 || op == 0x02#8 || op == 0x10#8 || op == 0x11#8 || op == 0x12#8 || op == 0x20#8

/-- Decode a command descriptor, the checks in the order of R105. -/
def decodeDescriptor (d : Descriptor) : Except RefuseReason Instr :=
  if opKnown (opField d.w0) = false then .error .unknownOperation
  else if reservedField d.w0 ≠ 0 then .error .reservedFieldNonzero
  else decodeOperation (opField d.w0) (addrField d.w0) d.w1 d.w2

/-- Decode a port-access selector (R110). -/
def decodeSelector (sel : Selector) : Except RefuseReason Instr :=
  match sel.toNat with
  | 0x018 => .ok .statusRd
  | 0x024 => .ok .dataRd
  | 0x104 => .ok .ctrlWr
  | 0x110 => .ok .timingWr
  | 0x118 => .ok .statusWr
  | 0x11C => .ok .clearWr
  | 0x124 => .ok .dataWr
  | 0x12C => .ok .delayWr
  | _ => .error .unknownPortAccess

/-- Decode a port access: only a 32-bit access has a meaning (R74). -/
def decodePort (p : PortRequest) : Except RefuseReason Instr :=
  if p.width = 4 then decodeSelector p.selector else .error .unknownPortAccess

/-- The decoder (R105, R110). -/
def decode : Encoded → Except RefuseReason Instr
  | .cmd d => decodeDescriptor d
  | .port p => decodePort p

/-- `W0` of a descriptor: OP in bits 7:0, ADDR in bits 14:8, bits 31:15 zero (R101). -/
def descriptorWord (op : BitVec 8) (addr : BitVec 7) : Word :=
  op.setWidth 32 ||| (addr.setWidth 32 <<< 8)

/-- A port access of the width the engine uses (R74). -/
def portWord (sel : Selector) : Encoded := .port ⟨sel, 4⟩

/-- The encoder, row by row from R102, R104 and R110. -/
def encode : Instr → Encoded
  | .calculate clk f => .cmd ⟨descriptorWord 0x01 0, clk, f⟩
  | .init clk f => .cmd ⟨descriptorWord 0x02 0, clk, f⟩
  | .write addr outLen => .cmd ⟨descriptorWord 0x10 addr, outLen, 0⟩
  | .read addr inLen => .cmd ⟨descriptorWord 0x11 addr, 0, inLen⟩
  | .writeRead addr outLen inLen => .cmd ⟨descriptorWord 0x12 addr, outLen, inLen⟩
  | .classify snapshot => .cmd ⟨descriptorWord 0x20 0, snapshot, 0⟩
  | .statusRd => portWord 0x018
  | .dataRd => portWord 0x024
  | .ctrlWr => portWord 0x104
  | .timingWr => portWord 0x110
  | .statusWr => portWord 0x118
  | .clearWr => portWord 0x11C
  | .dataWr => portWord 0x124
  | .delayWr => portWord 0x12C

/-- The request whose bits are `w`, numbered as the opcode table numbers them, with the bits from `nbits` up zero (log 4). A
PORT row has 9 bits, so two whole bytes; a CMD row has one word, and `W1`, `W2` count on from it. A number with a bit above
the selector's 9 is no port access. -/
def tableRequest (nbits w : Nat) : Option Encoded :=
  let v := w % 2 ^ nbits
  if nbits ≤ 16 then
    if v < 512 then some (portWord (BitVec.ofNat 9 v)) else none
  else
    some (.cmd ⟨BitVec.ofNat 32 v, BitVec.ofNat 32 (v / 2 ^ 32), BitVec.ofNat 32 (v / 2 ^ 64)⟩)

/-- The instruction the decoder reads from an instruction whose bits are `w`, numbered as the opcode table numbers them. -/
def decodeTableWord (nbits w : Nat) : Option Instr :=
  match tableRequest nbits w with
  | none => none
  | some e =>
    match decode e with
    | .ok i => some i
    | .error _ => none

/-- One row of spec/opcode_table.json: a word belongs to it when the word under the mask is the match. -/
structure TableRow where
  mnemonic : String
  isPort : Bool
  pattern : Nat
  mask : Nat
deriving DecidableEq, Repr

/-- The opcode table, row by row in the table's order. -/
def opcodeTable : List TableRow := [
  ⟨"CALC", false, 0x00000001, 0xFFFFFFFF⟩,
  ⟨"INIT", false, 0x00000002, 0xFFFFFFFF⟩,
  ⟨"WRITE", false, 0x00000010, 0xFFFF80FF⟩,
  ⟨"READ", false, 0x00000011, 0xFFFF80FF⟩,
  ⟨"WRITE_READ", false, 0x00000012, 0xFFFF80FF⟩,
  ⟨"CLASSIFY", false, 0x00000020, 0xFFFFFFFF⟩,
  ⟨"STATUS_RD", true, 0x018, 0x1FF⟩,
  ⟨"DATA_RD", true, 0x024, 0x1FF⟩,
  ⟨"CTRL_WR", true, 0x104, 0x1FF⟩,
  ⟨"TIMING_WR", true, 0x110, 0x1FF⟩,
  ⟨"STATUS_WR", true, 0x118, 0x1FF⟩,
  ⟨"CLEAR_WR", true, 0x11C, 0x1FF⟩,
  ⟨"DATA_WR", true, 0x124, 0x1FF⟩,
  ⟨"DELAY_WR", true, 0x12C, 0x1FF⟩]

/-- The index of an instruction's row in `opcodeTable`. -/
def Instr.rowIndex : Instr → Nat
  | .calculate _ _ => 0
  | .init _ _ => 1
  | .write _ _ => 2
  | .read _ _ => 3
  | .writeRead _ _ _ => 4
  | .classify _ => 5
  | .statusRd => 6
  | .dataRd => 7
  | .ctrlWr => 8
  | .timingWr => 9
  | .statusWr => 10
  | .clearWr => 11
  | .dataWr => 12
  | .delayWr => 13

/-- The word of a request that the opcode table's mask and match speak of, and whether it is a PORT word. -/
def Encoded.tableWord : Encoded → Bool × Nat
  | .cmd d => (false, d.w0.toNat)
  | .port p => (true, p.selector.toNat)

/-- Does this request belong to this row of the opcode table? -/
def TableRow.covers (r : TableRow) (e : Encoded) : Bool :=
  e.tableWord.1 == r.isPort && e.tableWord.2 &&& r.mask == r.pattern

end Sys2Proof
end

