-- ==== Sys2Proof/Machine/Fetch.lean ====
section
/-! DEFINITION. Where the engine's next instruction comes from: at IDLE the host's next request (R180), at every other control
point but DONE the selector that control point issues (R110). -/

namespace Sys2Proof.Machine

/-- What the engine does next. -/
inductive Fetched where
  /-- It has no step: the mode is Refused (R37). -/
  | halted (r : RefuseReason)
  /-- It has no step: IDLE, and the host issues nothing (R180). -/
  | nothing
  /-- The DONE step (R197). -/
  | finish
  /-- It takes this request and refuses it (R105, R259). -/
  | reject (r : RefuseReason) (s : State)
  /-- It executes this instruction at this state. -/
  | run (i : Instr) (s : State)
deriving DecidableEq, Repr

/-- Has the instruction an output buffer, so that the host hands one over (R102, R267)? -/
def takesOut : Instr → Bool
  | .write _ _ => true
  | .writeRead _ _ _ => true
  | _ => false

/-- Has the instruction an input buffer, so that the host hands one over (R102, R267)? -/
def takesIn : Instr → Bool
  | .read _ _ => true
  | .writeRead _ _ _ => true
  | _ => false

/-- The state in which a request taken from the host is executed: the request is off the list, and the buffers the operation
has are handed over (R267; log 13). -/
def accept (i : Instr) (q : Request) (rest : List Request) (s : State) : State :=
  { s with
    inbox := rest
    outBuf := if takesOut i then q.outBuf else s.outBuf
    inBuf := if takesIn i then q.inBuf else s.inBuf }

/-- The next request of the host, decoded (R180, R105). -/
def fetchCommand (s : State) : Fetched :=
  match s.inbox with
  | [] => .nothing
  | q :: rest =>
    match decode (.cmd q.descriptor) with
    | .ok i => .run i (accept i q rest s)
    | .error r => .reject r { s with inbox := rest }

/-- The port access of the control point, decoded (R110). -/
def fetchAccess (s : State) : Fetched :=
  match issuedSelector s.pc with
  | none => .finish
  | some sel =>
    match decode (portWord sel) with
    | .ok i => .run i s
    | .error r => .reject r s

/-- What the engine does next, by mode and control point. -/
def fetch (s : State) : Fetched :=
  match s.mode with
  | .refused r => .halted r
  | .running =>
    match s.pc with
    | .idle => fetchCommand s
    | _ => fetchAccess s

/-- The smallest parameters the calculator gives (R149), for `placeAccess`. -/
def smallestParams : TimingParameters := ⟨0, 1, 1, 2, 4⟩

/-- `s` at a control point that issues this port access, with what that control point's rule reads (log 5). A selector the
engine never issues cannot be placed: the state is the one in which it has been refused (R110). -/
def placeAccess (sel : Selector) (s : State) : State :=
  let t := { s with mode := .running }
  match decodeSelector sel with
  | .ok .statusRd => { t with pc := .addrWait }
  | .ok .dataRd => { t with pc := .rxData, op := some .read, inLen := 1, j := 0 }
  | .ok .ctrlWr => { t with pc := .stopIssue, op := some .write }
  | .ok .timingWr => { t with pc := .initT, op := some .init, params := some smallestParams }
  | .ok .statusWr => { t with pc := .flushTxe, err := some .notAcknowledge }
  | .ok .clearWr => { t with pc := .abortClear, err := some .busError }
  | .ok .dataWr => { t with pc := .flushDummy, err := some .notAcknowledge }
  | .ok .delayWr => { t with pc := .initD, op := some .init, params := some smallestParams }
  | _ => refuse .unknownPortAccess t

/-- `s` at IDLE with this descriptor the host's next request, its buffers all zero (log 5). -/
def placeCommand (d : Descriptor) (s : State) : State :=
  { s with mode := .running, pc := .idle, inbox := ⟨d, [], []⟩ :: s.inbox }

/-- `s` with the next step running the request whose bits are `w` (log 5). -/
def placeWord (nbits w : Nat) (s : State) : State :=
  match tableRequest nbits w with
  | some (.cmd d) => placeCommand d s
  | some (.port p) => placeAccess p.selector s
  | none => refuse .unknownPortAccess s

end Sys2Proof.Machine
end

