-- ==== Sys2Proof/Machine/Step.lean ====
section
/-! DEFINITION. One step of the engine (R14): the instruction the fetch gives, the return at DONE, or no step. -/

namespace Sys2Proof.Machine

/-- One step of the engine. -/
def step (s : State) : Host.Outcome State Fault Refusal :=
  match fetch s with
  | .halted r => .refused (.halted r)
  | .nothing => .refused .noOperation
  | .finish => .next (finish s)
  | .reject r t => .next (refuse r t)
  | .run i t => exec i t

/-- `s` with the instruction whose bits are `w`, numbered as the opcode table numbers them, where `step` takes its next one
(log 5). -/
def State.withFetchWord (s : State) (nbits w : Nat) : State := placeWord nbits w s

end Sys2Proof.Machine
end

