-- ==== Sys2Proof/Safety.lean ====
section
/-! DEFINITION. What counts as a safe run: the invariant every step keeps, the legal words of the history, the transition table
of R203, runs, and the premise EnvProgress of a termination claim (R81). -/

namespace Sys2Proof.Machine

/-- The invariants of R31 on a parameter record: "setup_delay ≥ 2; hold_delay ≥ 4" (the others are the fields' widths). -/
def TimingParameters.legal (p : TimingParameters) : Bool :=
  decide (2 ≤ p.setupDelay.toNat) && decide (4 ≤ p.holdDelay.toNat)

/-- The CTRL words of R198: the STOP word, or a START word of either direction with a byte count that is not 0. -/
def ctrlLegal (v : Word) : Bool :=
  v == 0x00004000#32 ||
    ((v &&& 0xFF00FF01#32 == 0x00002000#32 || v &&& 0xFF00FF01#32 == 0x02002400#32) && v &&& 0x00FF0000#32 != 0#32)

/-- A legal word of the register at `off` (R39, R40, R44, R109, R198); no other register is written (R110). -/
def writeLegal (off : Offset) (v : Word) : Bool :=
  if off = ctrlOff then ctrlLegal v
  else if off = timingOff then v &&& 0x0FFF0000#32 == 0#32
  else if off = delayOff then
    v &&& 0xFFFF0000#32 == 0#32 && decide (2 ≤ v.toNat % 256) && decide (4 ≤ v.toNat / 256 % 256)
  else if off = statusOff then v == 0x00000001#32
  else if off = clearOff then v == 0x00000100#32 || v == 0x00000200#32 || v == 0x00000030#32
  else if off = dataOff then v &&& 0xFFFFFF00#32 == 0#32
  else false

/-- A legal event: a read of STATUS or DATA, whatever it answered (R80, R110), or a legal write. -/
def PortEvent.legal : PortEvent → Bool
  | .rd off _ => off == statusOff || off == dataOff
  | .wr off v => writeLegal off v

/-- Is this one of the three transaction operations? -/
def Op.isTransaction (op : Op) : Bool := op.hasOut || op.hasIn

/-- The length of a buffer the operation has is legal (R31, R182); that of one it has not is 0 (log 10). -/
def bufferLengthOk (has : Bool) (n : Nat) : Bool := if has then lengthOk n else n == 0

/-- A transaction in flight: configured (R181), its lengths in range (R31, R182), its indexes no more than them (R33). -/
def transactionOk (s : State) : Bool :=
  match s.op with
  | some op =>
    op.isTransaction && s.cfg.isSome && bufferLengthOk op.hasOut s.outLen && bufferLengthOk op.hasIn s.inLen &&
      decide (s.i ≤ s.outLen) && decide (s.j ≤ s.inLen)
  | none => false

/-- Is the operation in flight one with an output buffer? -/
def sending (s : State) : Bool := s.op == some .write || s.op == some .writeRead

/-- Is the operation in flight one with an input buffer? -/
def receiving (s : State) : Bool := s.op == some .read || s.op == some .writeRead

/-- What holds at each control point while the mode is Running. -/
def phaseOk (s : State) : Bool :=
  match s.pc with
  | .idle => s.op == none && s.err == none && s.params == none
  | .initT => s.op == some .init && s.params.isSome
  | .initD => s.op == some .init && s.params.isSome
  | .addrWait => transactionOk s && s.i == 0 && s.j == 0
  | .addrProg => transactionOk s && s.i == 0 && s.j == 0
  | .txPoll => transactionOk s && sending s && decide (s.i < s.outLen) && s.j == 0
  | .txData => transactionOk s && sending s && decide (s.i < s.outLen) && s.j == 0
  | .tcPoll => transactionOk s && sending s && s.i == s.outLen && s.j == 0
  | .stopIssue => transactionOk s && s.op == some .write && s.i == s.outLen
  | .restartProg => transactionOk s && s.op == some .writeRead && s.i == s.outLen && s.j == 0
  | .rxPoll => transactionOk s && receiving s && decide (s.j < s.inLen) && s.i == s.outLen
  | .rxData => transactionOk s && receiving s && decide (s.j < s.inLen) && s.i == s.outLen
  | .abortClear =>
    transactionOk s && (s.err == some .busError || s.err == some .arbitrationLost || s.err == some .notAcknowledge)
  | .flushRead => transactionOk s && s.err == some .notAcknowledge
  | .flushDummy => transactionOk s && s.err == some .notAcknowledge
  | .flushTxe => transactionOk s && s.err == some .notAcknowledge
  | .done => s.op.isSome && s.result.isSome

/-- Running with the control point's condition, or Refused at IDLE for one of the three reasons a host operation has. -/
def modeOk (s : State) : Bool :=
  match s.mode with
  | .running => phaseOk s
  | .refused r => s.pc == .idle && r != .unknownPortAccess

/-- Every parameter record held is legal. -/
def paramsOk (s : State) : Bool := s.params.all TimingParameters.legal && s.cfg.all TimingParameters.legal

/-- Every buffer held, or still to be handed over or handed back, is in the canonical form. -/
def buffersOk (s : State) : Bool :=
  s.outBuf.wf && s.inBuf.wf && s.inbox.all (fun q => q.outBuf.wf && q.inBuf.wf) &&
    s.delivered.all (fun r => r.inBuf.all Memory.wf)

/-- The invariant of the block. -/
structure State.Inv (s : State) : Prop where
  mode : modeOk s = true
  params : paramsOk s = true
  hist : s.hist.all PortEvent.legal = true
  buffers : buffersOk s = true

/-- The edges between control points: those of the transaction table (R203), and those of CALC, INIT and CLASSIFY (R150 to
R152, R241). A refused descriptor leaves control at IDLE. -/
def edge : ControlPoint → ControlPoint → Bool
  | .idle, t => t == .idle || t == .done || t == .addrWait || t == .initT
  | .initT, t => t == .initD
  | .initD, t => t == .done
  | .addrWait, t => t == .addrWait || t == .addrProg
  | .addrProg, t => t == .rxPoll || t == .txPoll
  | .txPoll, t => t == .abortClear || t == .txData || t == .txPoll
  | .txData, t => t == .tcPoll || t == .txPoll
  | .tcPoll, t => t == .abortClear || t == .stopIssue || t == .restartProg || t == .tcPoll
  | .stopIssue, t => t == .done
  | .restartProg, t => t == .rxPoll
  | .rxPoll, t => t == .abortClear || t == .rxData || t == .rxPoll
  | .rxData, t => t == .done || t == .rxPoll
  | .abortClear, t => t == .done || t == .flushRead
  | .flushRead, t => t == .flushDummy || t == .flushTxe
  | .flushDummy, t => t == .done
  | .flushTxe, t => t == .done
  | .done, t => t == .idle

/-- A STATUS answer that ends the polling at whichever control point reads it: no addressing sequence in flight, and an abort
flag or all three awaited flags. Stronger than what R81 asks of one control point. -/
def releasing (v : Word) : Bool :=
  pollEnds .addrWait v && pollEnds .txPoll v && pollEnds .tcPoll v && pollEnds .rxPoll v

/-- The state after `k` steps, where every one of them answers a next state. -/
def runsTo (k : Nat) (s t : State) : Prop := Sys2Proof.core.run k s = .next t

/-- `EnvProgress` (R81), the premise of a termination claim, for the run from `s`: wherever the run polls, one of the coming
answers is one that ends the polling at that control point. Nothing is asked at any other control point. -/
def EnvProgress (s : State) : Prop :=
  ∀ k u, runsTo k s u → u.mode = .running → isPoll u.pc = true → ∃ n, pollEnds u.pc (comingAnswer u n) = true

end Sys2Proof.Machine
end

