-- ==== Sys2Proof/Certificates/Slice0/Obligations.lean ====
section
/-! DEFINITION. The statements about the model, in the order of OBLIGATIONS.json. -/

open Sys2Proof Sys2Proof.Machine

/-! ### Encoding (30_encoding) -/

/-- R101 to R104, R110: encoding an instruction and decoding the request gives the instruction back, every operand at every
value its field admits. -/
def Obligations.DecodeOfEncode : Prop :=
  ∀ i : Instr, (encode i).wellFormed = true ∧ decode (encode i) = .ok i

/-- R101 to R105, R110: a request that decodes is the one the encoder gives for its instruction, so that no two requests mean the
same instruction. -/
def Obligations.EncodeOfDecode : Prop :=
  ∀ (e : Encoded) (i : Instr), decode e = .ok i → encode i = e

/-- R105: the four checks in their order, each with its reason, and an operation where all pass. -/
def Obligations.DescriptorChecksInOrder : Prop :=
  ∀ d : Descriptor,
    (d.opListed = false → decode (.cmd d) = .error .unknownOperation) ∧
    (d.opListed = true → d.reservedZero = false → decode (.cmd d) = .error .reservedFieldNonzero) ∧
    (d.opListed = true → d.reservedZero = true → d.addressAllowed = false →
      decode (.cmd d) = .error .reservedFieldNonzero) ∧
    (d.opListed = true → d.reservedZero = true → d.addressAllowed = true → d.operandsAllowed = false →
      decode (.cmd d) = .error .reservedFieldNonzero) ∧
    (d.wellFormed = true → ∃ i, decode (.cmd d) = .ok i)

/-- R74, R110: a port access decodes exactly when it is four bytes wide and its selector is one of the eight; any other is
refused with UnknownPortAccess. -/
def Obligations.PortAccessDecodesOrIsUnknown : Prop :=
  ∀ p : PortRequest,
    (p.wellFormed = true → ∃ i, decode (.port p) = .ok i ∧ encode i = .port p) ∧
    (p.wellFormed = false → decode (.port p) = .error .unknownPortAccess)

/-- 95_test_vectors P1 to P4, R100 to R104, R110: words written out from the spec decode to the instructions they stand for. -/
def Obligations.SpecWordsDecode : Prop :=
  decode (.cmd ⟨0x00000001, 0x07270E00, 0x00061A80⟩) = .ok (.calculate 120000000 400000) ∧
  decode (.cmd ⟨0x00000002, 0x07270E00, 0x000186A0⟩) = .ok (.init 120000000 100000) ∧
  decode (.cmd ⟨0x00005010, 0x00000003, 0⟩) = .ok (.write 0x50 3) ∧
  decode (.cmd ⟨0x00005011, 0, 0x00000002⟩) = .ok (.read 0x50 2) ∧
  decode (.cmd ⟨0x00007612, 0x00000001, 0x00000003⟩) = .ok (.writeRead 0x76 1 3) ∧
  decode (.cmd ⟨0x00000020, 0x00000311, 0⟩) = .ok (.classify 0x311) ∧
  decode (.port ⟨0x018, 4⟩) = .ok .statusRd ∧
  decode (.port ⟨0x11C, 4⟩) = .ok .clearWr

/-- R39, R40, R107: the fields of the two configuration words, and their reserved bits. -/
def Obligations.ConfigurationWordFields : Prop :=
  ∀ p : TimingParameters,
    (timingWord p).extractLsb' 0 8 = p.lowPeriod ∧ (timingWord p).extractLsb' 8 8 = p.highPeriod ∧
    (timingWord p).extractLsb' 16 12 = 0 ∧ (timingWord p).extractLsb' 28 4 = p.prescaler ∧
    (delayWord p).extractLsb' 0 8 = p.setupDelay ∧ (delayWord p).extractLsb' 8 8 = p.holdDelay ∧
    (delayWord p).extractLsb' 16 16 = 0

/-- R41, R108, R212: the fields of every CTRL word, and its reserved bits. -/
def Obligations.ControlWordFields : Prop :=
  ∀ (start rd autoend stop : Bool) (addr : BitVec 7) (n : BitVec 8), ∀ v, v = ctrlWord start addr rd n autoend stop →
    v.getLsbD 0 = false ∧ v.extractLsb' 1 7 = addr ∧ v.extractLsb' 8 2 = 0 ∧ v.getLsbD 10 = rd ∧
    v.extractLsb' 11 2 = 0 ∧ v.getLsbD 13 = start ∧ v.getLsbD 14 = stop ∧ v.getLsbD 15 = false ∧
    v.extractLsb' 16 8 = n ∧ v.getLsbD 24 = false ∧ v.getLsbD 25 = autoend ∧ v.extractLsb' 26 6 = 0

/-! ### The step (42_transaction_engine R180, R197; 60_exceptions; 10_state) -/

/-- R180, R267: at IDLE the step takes the host's next request, hands over the buffers the operation has, and runs the decoded
operation. -/
def Obligations.StepRunsTheHostOperation : Prop :=
  ∀ (s : State) (q : Request) (rest : List Request) (i : Instr),
    s.mode = .running → s.pc = .idle → s.inbox = q :: rest → decode (.cmd q.descriptor) = .ok i →
    ∃ u, step s = exec i u ∧ u = { s with inbox := rest, outBuf := u.outBuf, inBuf := u.inBuf } ∧
      (u.outBuf = match i with
        | .write _ _ => q.outBuf
        | .writeRead _ _ _ => q.outBuf
        | _ => s.outBuf) ∧
      (u.inBuf = match i with
        | .read _ _ => q.inBuf
        | .writeRead _ _ _ => q.inBuf
        | _ => s.inBuf)

/-- R110: at every control point but IDLE and DONE the step runs the one port access that control point issues. -/
def Obligations.StepRunsTheIssuedAccess : Prop :=
  ∀ (s : State) (sel : Selector), s.mode = .running → issuedSelector s.pc = some sel →
    ∃ i, decode (.port ⟨sel, 4⟩) = .ok i ∧ step s = exec i s

/-- R105, R259: a request that does not decode is refused: the mode becomes Refused with the decoder's reason, the request is
used up, and nothing else changes. -/
def Obligations.MalformedDescriptorRefused : Prop :=
  ∀ (s : State) (q : Request) (rest : List Request) (r : RefuseReason),
    s.mode = .running → s.pc = .idle → s.inbox = q :: rest → decode (.cmd q.descriptor) = .error r →
    step s = .next { s with inbox := rest, mode := .refused r }

/-- R197, R250, R267: DONE hands the host exactly one reply, clears `op`, `err` and `params`, returns to IDLE and keeps the
rest. -/
def Obligations.DoneHandsOverOneResult : Prop :=
  ∀ (s : State) (op : Op) (r : Result), s.mode = .running → s.pc = .done → s.op = some op → s.result = some r →
    step s = .next { s with
      delivered := s.delivered ++ [⟨r, if op = .read ∨ op = .writeRead then some s.inBuf else none⟩],
      op := none, err := none, params := none, pc := .idle }

/-- R37, R259: once the mode is Refused the machine has no step, and so never leaves it; R180: nor has it one at IDLE when the
host issues nothing. -/
def Obligations.NoStepWhenRefusedOrUnasked : Prop :=
  (∀ (s : State) (r : RefuseReason), s.mode = .refused r → step s = .refused (.halted r)) ∧
  (∀ s : State, s.mode = .running → s.pc = .idle → s.inbox = [] → step s = .refused .noOperation)

/-- R52: the state after reset. The clauses are the fields R52 names. -/
def Obligations.ResetState : Prop :=
  State.reset.mode = .running ∧ State.reset.pc = .idle ∧ State.reset.op = none ∧ State.reset.err = none ∧
  State.reset.params = none ∧ State.reset.cfg = none ∧ State.reset.result = none ∧ State.reset.addr = 0 ∧
  State.reset.outLen = 0 ∧ State.reset.inLen = 0 ∧ State.reset.i = 0 ∧ State.reset.j = 0 ∧ State.reset.hist = []

/-- The invariant holds after reset, whatever the host is going to ask (with buffers in the canonical form) and the environment
to answer. -/
def Obligations.InvariantHoldsAtReset : Prop :=
  ∀ (inbox : List Request) (env : List Word) (draws : Nat),
    inbox.all (fun q => q.outBuf.wf && q.inBuf.wf) = true →
    State.Inv { State.reset with inbox := inbox, env := env, draws := draws }

/-- Every step keeps the invariant: the condition of each control point (R31, R33, R35), only legal events in the history (R45,
R109, R110, R198), legal parameter records (R31), buffers in the canonical form, and no refusal but those of a host operation
(R259). -/
def Obligations.EveryStepKeepsTheInvariant : Prop :=
  ∀ s t : State, s.Inv → step s = .next t → t.Inv

/-- R258, R296: from a state that meets the invariant no step faults, and the engine always has a step unless it is Refused or
waits for the host at IDLE. -/
def Obligations.NoFaultAndNoStuckEngine : Prop :=
  ∀ s : State, s.Inv →
    (∀ f, step s ≠ .fault f) ∧
    (s.mode = .running → (s.pc ≠ .idle ∨ s.inbox ≠ []) → ∃ t, step s = .next t)

/-- R203 (with the steps of R150 to R152 and R241): no step moves control along an edge the table does not list. -/
def Obligations.OnlyListedTransitions : Prop :=
  ∀ s t : State, s.Inv → step s = .next t → edge s.pc t.pc = true

/-- R14, R79, R110: a step at a control point that issues an access appends exactly one event, of that control point's selector;
a step at IDLE or DONE appends none. -/
def Obligations.OneEventOfTheIssuedSelector : Prop :=
  ∀ s t : State, s.Inv → step s = .next t →
    (issuedSelector s.pc = none → t.hist = s.hist) ∧
    (∀ sel, issuedSelector s.pc = some sel → ∃ e, e.selector = sel ∧ t.hist = s.hist ++ [e])

/-- R35: `cfg` is set by INIT's second register write and by nothing else, and then to INIT's parameters. -/
def Obligations.OnlyInitSetsConfiguration : Prop :=
  ∀ s t : State, step s = .next t →
    t.cfg = s.cfg ∨ (s.pc = .initD ∧ s.params ≠ none ∧ t.cfg = s.params)

/-- R70, R76: no step but the hand-over at IDLE changes `OutBuf`, and none but the hand-over and RX_DATA changes `InBuf`, RX_DATA
only in byte `j`, which is in range. -/
def Obligations.BuffersOnlyTouchedInPlace : Prop :=
  ∀ s t : State, step s = .next t →
    (s.pc ≠ .idle → t.outBuf = s.outBuf) ∧
    (s.pc ≠ .idle → s.pc ≠ .rxData → t.inBuf = s.inBuf) ∧
    (s.pc = .rxData → s.j < s.inLen ∧ ∀ a, a ≠ s.j → memRead t.inBuf a = memRead s.inBuf a)

/-- R33: `i` and `j` only count up, by exactly 1 per byte moved: `i` at TX_DATA, `j` at RX_DATA, and no other step of an
operation changes them. -/
def Obligations.IndexesCountBytesMoved : Prop :=
  ∀ s t : State, s.Inv → step s = .next t → s.pc ≠ .idle →
    t.i = s.i + (if s.pc = .txData then 1 else 0) ∧ t.j = s.j + (if s.pc = .rxData then 1 else 0)

/-- R79, R80, R210 to R217: a port read returns whatever 32-bit value the environment has to give and records it; a port write
records its value; neither changes anything else. -/
def Obligations.PortAccessesRecordOneEvent : Prop :=
  ∀ (s : State) (v : Word) (rest : List Word) (off : Offset),
    (s.env = v :: rest → draw s = v ∧
      portRead off s = { s with hist := s.hist ++ [.rd off v], env := rest, draws := s.draws + 1 }) ∧
    portWrite off v s = { s with hist := s.hist ++ [.wr off v] }

/-! ### TimingCalculator and initialization (41_timing_calculator) -/

/-- R141, R142, R149 (d): the guards, in their order. -/
def Obligations.FrequencyAndRatioGuards : Prop :=
  ∀ clk f : Word,
    (1000000 < f.toNat → timingCalc clk f = .configErr .frequencyTooHigh) ∧
    (f.toNat = 0 → timingCalc clk f = .defect .zeroTargetFrequency) ∧
    (0 < f.toNat → f.toNat ≤ 1000000 → clk.toNat / f.toNat < 4 → timingCalc clk f = .configErr .ratioOutOfRange)

/-- R143, R144, R147, R149 (a): the Standard regime's outcome by its ratio, with every field of an Ok. That
`hold_delay` is 4 where its quotient is 0 is the spec's own reading, arithmetic over the integers (D13, log 21). -/
def Obligations.StandardRegimeOutcome : Prop :=
  ∀ clk f : Word, 1 ≤ f.toNat → f.toNat ≤ 100000 → ∀ ratio, ratio = clk.toNat / f.toNat →
    (8224 ≤ ratio → timingCalc clk f = .configErr .frequencyTooHigh) ∧
    (4 ≤ ratio → ratio ≤ 8223 → ∃ (p : TimingParameters) (a : Nat), timingCalc clk f = .ok p ∧
      a = p.prescaler.toNat + 1 ∧ p.prescaler.toNat = min ((ratio + 511) / 512 - 1) 15 ∧
      p.highPeriod.toNat = (ratio / a - 2) / 2 ∧ p.lowPeriod = p.highPeriod ∧
      p.setupDelay.toNat = max (clk.toNat / 2000000 / a) 2 ∧
      p.holdDelay.toNat + 1 = max (clk.toNat / 800000 / a) 5)

/-- R145 to R147, R149 (b): the Fast and Fast-plus regimes' outcome by its ratio, with every field of an Ok. The spec's
own: FieldOverflow for a field of 256 (D14), and `hold_delay` 4 where its quotient is 0 (D13); log 21. -/
def Obligations.FastRegimeOutcome : Prop :=
  ∀ clk f : Word, 100000 < f.toNat → f.toNat ≤ 1000000 → ∀ ratio, ratio = clk.toNat / f.toNat →
    (6145 ≤ ratio → timingCalc clk f = .defect .prescalerOutOfRange) ∧
    (4 ≤ ratio → ratio ≤ 6144 → ratio % 384 = 0 → timingCalc clk f = .defect .fieldOverflow) ∧
    (4 ≤ ratio → ratio ≤ 6144 → ratio % 384 ≠ 0 → ∃ (p : TimingParameters) (a : Nat), timingCalc clk f = .ok p ∧
      a = p.prescaler.toNat + 1 ∧ p.prescaler.toNat = (ratio - 1) / 384 ∧
      p.highPeriod.toNat = (ratio / a - 3) / 3 ∧ p.lowPeriod.toNat = 2 * (p.highPeriod.toNat + 1) ∧
      p.setupDelay.toNat = (if 400000 < f.toNat then 2 else max (clk.toNat / 8000000 / a) 2) ∧
      p.holdDelay.toNat + 1 = max (clk.toNat / (if 400000 < f.toNat then 4000000 else 2000000) / a) 5)

/-- R149 (c), (e), R31: the delays of every Ok, and the one cause of a field overflow. -/
def Obligations.CalculatorBounds : Prop :=
  ∀ clk f : Word,
    (∀ p, timingCalc clk f = .ok p →
      2 ≤ p.setupDelay.toNat ∧ p.setupDelay.toNat ≤ 25 ∧ 4 ≤ p.holdDelay.toNat ∧ p.holdDelay.toNat ≤ 94 ∧
      (400000 < f.toNat → p.setupDelay.toNat = 2)) ∧
    (timingCalc clk f = .defect .fieldOverflow → 100000 < f.toNat ∧ (clk.toNat / f.toNat) % 384 = 0)

/-- R150: CALC completes in every state: its result is the calculator's outcome, control goes to DONE, and nothing else but `op`
changes: no event, no buffer, not `cfg`. With its encoding and its corner cases. The results for f = 0 and for a field of 256 are the spec's
own choice (D12, D14; log 21), and so is the hold delay of the smallest ratio (D13). -/
def Obligations.CalcResult : Prop :=
  (∀ (clk f : Word) (s : State), decode (.cmd ⟨0x00000001, clk, f⟩) = .ok (.calculate clk f) ∧
    exec (.calculate clk f) s = .next { s with op := some .calculate, result := some (timingCalc clk f).toResult, pc := .done }) ∧
  (∀ clk : Word, timingCalc clk 0 = .defect .zeroTargetFrequency ∧
    timingCalc clk 1000001 = .configErr .frequencyTooHigh) ∧
  timingCalc 400000 100000 = .ok ⟨0, 1, 1, 2, 4⟩ ∧ timingCalc 153600000 400000 = .defect .fieldOverflow ∧
  timingCalc 120000000 400000 = .ok ⟨0, 200, 99, 15, 59⟩

/-- R151: INIT completes in every state: on Ok the parameters are kept and control goes to INIT_T; otherwise the outcome is the
result and nothing is written. With its encoding. -/
def Obligations.InitDispatch : Prop :=
  ∀ (clk f : Word) (s : State), decode (.cmd ⟨0x00000002, clk, f⟩) = .ok (.init clk f) ∧
    ∃ t, exec (.init clk f) s = .next t ∧
      (∀ p, timingCalc clk f = .ok p → t = { s with op := some .init, params := some p, pc := .initT }) ∧
      ((∀ p, timingCalc clk f ≠ .ok p) →
        t = { s with op := some .init, result := some (timingCalc clk f).toResult, pc := .done })

/-- R152, R213, R217: INIT's two register writes: TIMING, then DELAY; `cfg` is set with the second. -/
def Obligations.InitWritesTimingThenDelay : Prop :=
  ∀ (s : State) (p : TimingParameters), s.params = some p →
    (s.pc = .initT → exec .timingWr s = .next { s with hist := s.hist ++ [.wr 0x10 (timingWord p)], pc := .initD }) ∧
    (s.pc = .initD → exec .delayWr s = .next { s with
      hist := s.hist ++ [.wr 0x2C (delayWord p)], cfg := some p, result := some (.okParams p), params := none, pc := .done })

/-- R151 to R153, R197: a whole INIT from IDLE. A successful one writes TIMING and DELAY, sets `cfg` and reports the parameters
in four steps; a failed one reports in two and changes no configuration. -/
def Obligations.InitRunsToIdle : Prop :=
  ∀ (s : State) (clk f : Word) (ob ib : Memory) (rest : List Request),
    s.mode = .running → s.pc = .idle → s.params = none → s.inbox = ⟨⟨2, clk, f⟩, ob, ib⟩ :: rest →
    (∀ p, timingCalc clk f = .ok p → runsTo 4 s { s with
      inbox := rest, hist := s.hist ++ [.wr 0x10 (timingWord p), .wr 0x2C (delayWord p)], cfg := some p,
      result := some (.okParams p), delivered := s.delivered ++ [⟨.okParams p, none⟩], op := none, err := none }) ∧
    ((∀ p, timingCalc clk f ≠ .ok p) → runsTo 2 s { s with
      inbox := rest, result := some (timingCalc clk f).toResult,
      delivered := s.delivered ++ [⟨(timingCalc clk f).toResult, none⟩], op := none, err := none })

/-! ### ErrorClassifier (43_error_classifier) -/

/-- R240, R242: the truth table, by the three bits alone, and that LengthError is never named. -/
def Obligations.ClassifierPriority : Prop :=
  ∀ s : Word,
    (s.getLsbD 8 = true → classify s = some .busError) ∧
    (s.getLsbD 8 = false → s.getLsbD 9 = true → classify s = some .arbitrationLost) ∧
    (s.getLsbD 8 = false → s.getLsbD 9 = false → s.getLsbD 4 = true → classify s = some .notAcknowledge) ∧
    (s.getLsbD 8 = false → s.getLsbD 9 = false → s.getLsbD 4 = false → classify s = none) ∧
    (classify s = none ↔ s &&& 0x310#32 = 0#32) ∧
    (∀ m : Word, m &&& 0x310#32 = 0#32 → classify (s ^^^ m) = classify s) ∧
    classify s ≠ some .lengthError

/-- R241: CLASSIFY completes in every state, configured or not: its result is the classification of the snapshot, and nothing
but `op`, `result` and `pc` changes. With its encoding and its corner cases. -/
def Obligations.ClassifyResult : Prop :=
  (∀ (v : Word) (s : State), decode (.cmd ⟨0x00000020, v, 0⟩) = .ok (.classify v) ∧
    exec (.classify v) s = .next { s with op := some .classify, result := some (.classified (classify v)), pc := .done }) ∧
  classify 0xFFFFFFFF = some .busError ∧ classify 0x00000210 = some .arbitrationLost ∧
  classify 0x00000031 = some .notAcknowledge ∧ classify 0x00004067 = none ∧ classify 0x00000400 = none ∧
  classify 0x00000311 = some .busError

/-- R43, R109, R195, R243: the CLEAR word of an abort kind asks for exactly that kind's flags to be cleared: BERR; or ARLO; or
NACKF and STOPF. LengthError has none. -/
def Obligations.ClearWordsNameTheImplicatedFlags : Prop :=
  (∀ (v status : Word), clearOperand .busError = some v →
    requestedClear v status = status &&& ~~~(1#32 <<< 8)) ∧
  (∀ (v status : Word), clearOperand .arbitrationLost = some v →
    requestedClear v status = status &&& ~~~(1#32 <<< 9)) ∧
  (∀ (v status : Word), clearOperand .notAcknowledge = some v →
    requestedClear v status = status &&& ~~~(1#32 <<< 4) &&& ~~~(1#32 <<< 5)) ∧
  clearOperand .busError ≠ none ∧ clearOperand .arbitrationLost ≠ none ∧ clearOperand .notAcknowledge ≠ none ∧
  clearOperand .lengthError = none

/-! ### Dispatch of a transaction (R181 to R183) -/

/-- R181, R259: an unconfigured transaction is refused with NotConfigured, before its lengths are looked at: no event, no buffer
access, no result. `op` holds the operation (log 9). -/
def Obligations.UnconfiguredTransactionRefused : Prop :=
  ∀ (s : State) (addr : BitVec 7) (m n : Word), s.cfg = none →
    exec (.write addr m) s = .next { s with op := some .write, mode := .refused .notConfigured } ∧
    exec (.read addr n) s = .next { s with op := some .read, mode := .refused .notConfigured } ∧
    exec (.writeRead addr m n) s = .next { s with op := some .writeRead, mode := .refused .notConfigured }

/-- R182: a length outside 1..255 gives LengthError at once: no event and no buffer access. 1 and 255 pass. What the length and
index registers become after a failure is the next statement's. -/
def Obligations.BadLengthGivesLengthError : Prop :=
  ∀ (s : State) (addr : BitVec 7) (m n : Word), s.cfg ≠ none →
    (m.toNat = 0 ∨ 255 < m.toNat → ∃ t, exec (.write addr m) s = .next t ∧
      t = { s with op := some .write, result := some (.err .lengthError), outLen := t.outLen, inLen := t.inLen,
                   i := t.i, j := t.j, pc := .done }) ∧
    (n.toNat = 0 ∨ 255 < n.toNat → ∃ t, exec (.read addr n) s = .next t ∧
      t = { s with op := some .read, result := some (.err .lengthError), outLen := t.outLen, inLen := t.inLen,
                   i := t.i, j := t.j, pc := .done }) ∧
    (m.toNat = 0 ∨ 255 < m.toNat ∨ n.toNat = 0 ∨ 255 < n.toNat → ∃ t, exec (.writeRead addr m n) s = .next t ∧
      t = { s with op := some .writeRead, result := some (.err .lengthError), outLen := t.outLen, inLen := t.inLen,
                   i := t.i, j := t.j, pc := .done }) ∧
    (1 ≤ m.toNat → m.toNat ≤ 255 → 1 ≤ n.toNat → n.toNat ≤ 255 →
      ∀ i, i = .write addr m ∨ i = .read addr n ∨ i = .writeRead addr m n →
        ∃ t, exec i s = .next t ∧ t.pc = .addrWait ∧ t.result = s.result)

/-- R182 and R208 as log 8 reads them (the model's reading): after LengthError `i = j = 0`, and the lengths are those of before. -/
def Obligations.LengthErrorCountsNoByte : Prop :=
  ∀ (s t : State) (addr : BitVec 7) (m n : Word), s.cfg ≠ none → t.result = some (.err .lengthError) → t.pc = .done →
    exec (.write addr m) s = .next t ∨ exec (.read addr n) s = .next t ∨ exec (.writeRead addr m n) s = .next t →
    t.i = 0 ∧ t.j = 0 ∧ t.outLen = s.outLen ∧ t.inLen = s.inLen

/-- R183: a configured transaction with lengths in range is set up at ADDR_WAIT, with the address of `W0[14:8]` and the
descriptor's lengths. The length of a buffer the operation does not have is left open here (log 10). -/
def Obligations.TransactionSetup : Prop :=
  (∀ (d : Descriptor) (addr : BitVec 7) (m n : Word),
    (decode (.cmd d) = .ok (.write addr m) → addr.toNat = d.w0.toNat / 256 % 128 ∧ m = d.w1) ∧
    (decode (.cmd d) = .ok (.read addr n) → addr.toNat = d.w0.toNat / 256 % 128 ∧ n = d.w2) ∧
    (decode (.cmd d) = .ok (.writeRead addr m n) → addr.toNat = d.w0.toNat / 256 % 128 ∧ m = d.w1 ∧ n = d.w2)) ∧
  ∀ (s : State) (addr : BitVec 7) (m n : Word), s.cfg ≠ none →
    (1 ≤ m.toNat → m.toNat ≤ 255 → ∃ t, exec (.write addr m) s = .next t ∧
      t = { s with op := some .write, addr := addr, outLen := m.toNat, inLen := t.inLen, i := 0, j := 0, err := none,
                   pc := .addrWait }) ∧
    (1 ≤ n.toNat → n.toNat ≤ 255 → ∃ t, exec (.read addr n) s = .next t ∧
      t = { s with op := some .read, addr := addr, outLen := t.outLen, inLen := n.toNat, i := 0, j := 0, err := none,
                   pc := .addrWait }) ∧
    (1 ≤ m.toNat → m.toNat ≤ 255 → 1 ≤ n.toNat → n.toNat ≤ 255 → exec (.writeRead addr m n) s =
      .next { s with op := some .writeRead, addr := addr, outLen := m.toNat, inLen := n.toNat, i := 0, j := 0, err := none,
                     pc := .addrWait })

/-- R205: what an earlier operation left in the datapath, the buffers and `result` has no effect on the next transaction. From two
idle configured states that differ only in these, the dispatch of the same WRITE, READ or WRITE_READ gives states that differ in
nothing but `result` and the buffer the operation does not have, which are as they were before. -/
def Obligations.CallsAreIndependent : Prop :=
  ∀ (s s' : State) (q : Request) (rest : List Request) (addr : BitVec 7) (m n : Word),
    s.mode = .running → s.pc = .idle → s.inbox = q :: rest → s.cfg ≠ none →
    1 ≤ m.toNat → m.toNat ≤ 255 → 1 ≤ n.toNat → n.toNat ≤ 255 →
    s' = { s with op := s'.op, addr := s'.addr, outLen := s'.outLen, inLen := s'.inLen, i := s'.i, j := s'.j, err := s'.err,
                  outBuf := s'.outBuf, inBuf := s'.inBuf, result := s'.result } →
    (decode (.cmd q.descriptor) = .ok (.write addr m) →
      ∃ t, step s = .next t ∧ step s' = .next { t with inBuf := s'.inBuf, result := s'.result }) ∧
    (decode (.cmd q.descriptor) = .ok (.read addr n) →
      ∃ t, step s = .next t ∧ step s' = .next { t with outBuf := s'.outBuf, result := s'.result }) ∧
    (decode (.cmd q.descriptor) = .ok (.writeRead addr m n) →
      ∃ t, step s = .next t ∧ step s' = .next { t with result := s'.result })

/-! ### Control points (R184 to R196) -/

/-- R184: ADDR_WAIT waits while START_PENDING reads 1, and checks no abort flag. -/
def Obligations.AddressWait : Prop :=
  ∀ s : State, s.pc = .addrWait → exec .statusRd s =
    .next { portRead 0x18 s with pc := if (draw s).getLsbD 14 then .addrWait else .addrProg }

/-- R185, R198: the one CTRL write that starts the address phase, as a number. -/
def Obligations.AddressProgram : Prop :=
  ∀ s : State, s.pc = .addrProg →
    ((s.op = some .write ∨ s.op = some .writeRead) → s.outLen ≤ 255 → exec .ctrlWr s =
      .next { portWrite 0x04 (BitVec.ofNat 32 (0x00002000 + s.outLen * 65536 + s.addr.toNat * 2)) s with pc := .txPoll }) ∧
    (s.op = some .read → s.inLen ≤ 255 → exec .ctrlWr s =
      .next { portWrite 0x04 (BitVec.ofNat 32 (0x02002400 + s.inLen * 65536 + s.addr.toNat * 2)) s with pc := .rxPoll })

/-- R186, R188, R191, R193: a data or completion poll classifies the one snapshot it reads. An abort kind wins over the awaited
flag: it is saved and control goes to ABORT_CLEAR. With none the poll goes on exactly when its flag reads 1. Nothing but the
read and this happens. -/
def Obligations.DataAndCompletionPolls : Prop :=
  ∀ s : State,
    (∀ e, (s.pc = .txPoll ∨ s.pc = .tcPoll ∨ s.pc = .rxPoll) → classify (draw s) = some e →
      exec .statusRd s = .next { portRead 0x18 s with err := some e, pc := .abortClear }) ∧
    (s.pc = .txPoll → classify (draw s) = none → exec .statusRd s =
      .next { portRead 0x18 s with pc := if (draw s).getLsbD 0 then .txData else .txPoll }) ∧
    (s.pc = .tcPoll → classify (draw s) = none → exec .statusRd s =
      .next { portRead 0x18 s with
        pc := (if (draw s).getLsbD 6 then (if s.op = some .write then .stopIssue else .restartProg) else .tcPoll) }) ∧
    (s.pc = .rxPoll → classify (draw s) = none → exec .statusRd s =
      .next { portRead 0x18 s with pc := if (draw s).getLsbD 2 then .rxData else .rxPoll })

/-- R187, R44: TX_DATA writes byte `i` of `OutBuf`, zero-extended, and counts it; and control comes to TX_DATA only from a poll
that read TXE = 1, so that one DATA write answers each such poll. -/
def Obligations.SendOneByte : Prop :=
  (∀ s : State, s.pc = .txData → s.i < s.outLen → exec .dataWr s =
    .next { portWrite 0x24 (BitVec.ofNat 32 (memRead s.outBuf s.i).toNat) s with
      i := s.i + 1, pc := if s.i + 1 = s.outLen then .tcPoll else .txPoll }) ∧
  (∀ s t : State, step s = .next t → t.pc = .txData → s.pc = .txPoll ∧ (draw s).getLsbD 0 = true)

/-- R189, R190: STOP_ISSUE writes 0x0000_4000 and completes with Ok; RESTART_PROG writes the repeated START of the read phase. -/
def Obligations.StopAndRestart : Prop :=
  ∀ s : State,
    (s.pc = .stopIssue → exec .ctrlWr s = .next { portWrite 0x04 0x00004000 s with result := some .ok, pc := .done }) ∧
    (s.pc = .restartProg → s.inLen ≤ 255 → exec .ctrlWr s =
      .next { portWrite 0x04 (BitVec.ofNat 32 (0x02002400 + s.inLen * 65536 + s.addr.toNat * 2)) s with pc := .rxPoll })

/-- R192, R76, R44: RX_DATA stores bits 7:0 of the DATA read as byte `j` of `InBuf`, leaves every other byte, counts it, and
completes with Ok after the last. -/
def Obligations.StoreOneByte : Prop :=
  ∀ s : State, s.pc = .rxData → s.j < s.inLen → s.inBuf.wf = true → ∃ t, exec .dataRd s = .next t ∧
    t = { portRead 0x24 s with inBuf := t.inBuf, j := s.j + 1, pc := t.pc, result := t.result } ∧
    t.pc = (if s.j + 1 = s.inLen then .done else .rxPoll) ∧
    t.result = (if s.j + 1 = s.inLen then some .ok else s.result) ∧
    t.inBuf.wf = true ∧ (memRead t.inBuf s.j).toNat = (draw s).toNat % 256 ∧
    ∀ a, a ≠ s.j → memRead t.inBuf a = memRead s.inBuf a

/-- Log 12 (the model's choice): with no byte at the index, which R76 excludes, TX_DATA and RX_DATA fault. No state that meets the
invariant does this. -/
def Obligations.IndexOutsideTheBufferFaults : Prop :=
  ∀ s : State,
    (s.pc = .txData → s.outLen ≤ s.i → exec .dataWr s = .fault .outBufIndex) ∧
    (s.pc = .rxData → s.inLen ≤ s.j → exec .dataRd s = .fault .inBufIndex)

/-- R195: ABORT_CLEAR writes the CLEAR word of the kind; a bus error or arbitration loss is then the result, a NACK goes on to
the flush. -/
def Obligations.AbortClear : Prop :=
  ∀ s : State, s.pc = .abortClear →
    (s.err = some .busError → exec .clearWr s =
      .next { portWrite 0x1C 0x00000100 s with result := some (.err .busError), pc := .done }) ∧
    (s.err = some .arbitrationLost → exec .clearWr s =
      .next { portWrite 0x1C 0x00000200 s with result := some (.err .arbitrationLost), pc := .done }) ∧
    (s.err = some .notAcknowledge → exec .clearWr s = .next { portWrite 0x1C 0x00000030 s with pc := .flushRead })

/-- R196: the flush: a fresh STATUS read that is not classified, then the dummy byte where TXIS reads 1 and the STATUS write
otherwise; the result is NotAcknowledge. -/
def Obligations.NackFlush : Prop :=
  ∀ s : State,
    (s.pc = .flushRead → exec .statusRd s =
      .next { portRead 0x18 s with pc := if (draw s).getLsbD 1 then .flushDummy else .flushTxe }) ∧
    (s.pc = .flushDummy → exec .dataWr s =
      .next { portWrite 0x24 0 s with result := some (.err .notAcknowledge), pc := .done }) ∧
    (s.pc = .flushTxe → exec .statusWr s =
      .next { portWrite 0x18 1 s with result := some (.err .notAcknowledge), pc := .done })

/-- R74, R110, R259 as log 7 reads them (the model's choice): a port access at a control point that does not issue it, or whose
operand the datapath does not hold, is refused with UnknownPortAccess and changes nothing else. No step from a state that meets
the invariant does this. -/
def Obligations.AccessWithoutAnOperandRefused : Prop :=
  ∀ s : State,
    (∀ (i : Instr) (sel : Selector), encode i = .port ⟨sel, 4⟩ → issuedSelector s.pc ≠ some sel →
      exec i s = .next { s with mode := .refused .unknownPortAccess }) ∧
    (s.pc = .addrProg → s.op ≠ some .write → s.op ≠ some .read → s.op ≠ some .writeRead →
      exec .ctrlWr s = .next { s with mode := .refused .unknownPortAccess }) ∧
    (s.pc = .initT → s.params = none → exec .timingWr s = .next { s with mode := .refused .unknownPortAccess }) ∧
    (s.pc = .initD → s.params = none → exec .delayWr s = .next { s with mode := .refused .unknownPortAccess }) ∧
    (s.pc = .abortClear → s.err = none ∨ s.err = some .lengthError →
      exec .clearWr s = .next { s with mode := .refused .unknownPortAccess })

/-! ### Runs -/

/-- R194 to R197, R206, R207: from an abort the operation ends without moving another byte or starting again: after a bus error or
arbitration loss one CLEAR write and the return, after a NACK also the flush; the index registers, the buffers and `cfg` are as
they were at the abort. -/
def Obligations.AbortRunsToIdle : Prop :=
  ∀ (s : State) (op : Op) (back : Option Memory), s.mode = .running → s.pc = .abortClear → s.op = some op →
    back = (if op = .read ∨ op = .writeRead then some s.inBuf else none) →
    (∀ e v, (e = .busError ∧ v = 0x100#32) ∨ (e = .arbitrationLost ∧ v = 0x200#32) → s.err = some e →
      runsTo 2 s { s with
        hist := s.hist ++ [.wr 0x1C v], result := some (.err e), delivered := s.delivered ++ [⟨.err e, back⟩],
        op := none, err := none, params := none, pc := .idle }) ∧
    (s.err = some .notAcknowledge →
      runsTo 4 s { s with
        hist := s.hist ++ [.wr 0x1C 0x30, .rd 0x18 (draw s), if (draw s).getLsbD 1 then .wr 0x24 0 else .wr 0x18 1],
        env := s.env.tail, draws := s.draws + 1, result := some (.err .notAcknowledge),
        delivered := s.delivered ++ [⟨.err .notAcknowledge, back⟩], op := none, err := none, params := none, pc := .idle })

/-- R296, R204: while the environment goes on answering with neither an abort nor the awaited flag, a poll stays where it is: `k`
answers make `k` STATUS reads and change nothing else. -/
def Obligations.HangsAreKept : Prop :=
  ∀ (answers rest : List Word) (s : State), s.mode = .running → s.env = answers ++ rest →
    ((s.pc = .addrWait ∧ ∀ v ∈ answers, v.getLsbD 14 = true) ∨
     (s.pc = .txPoll ∧ ∀ v ∈ answers, classify v = none ∧ v.getLsbD 0 = false) ∨
     (s.pc = .tcPoll ∧ ∀ v ∈ answers, classify v = none ∧ v.getLsbD 6 = false) ∨
     (s.pc = .rxPoll ∧ ∀ v ∈ answers, classify v = none ∧ v.getLsbD 2 = false)) →
    runsTo answers.length s { s with
      hist := s.hist ++ answers.map (PortEvent.rd 0x18), env := rest, draws := s.draws + answers.length }

/-- R200, R204, R208: a whole WRITE with no abort in which every poll succeeds at once: from IDLE back to IDLE in `2n + 6` steps
with `2n + 4` accesses: the poll, the START, a poll and a DATA write for each byte in order, the completion poll and the STOP. -/
def Obligations.WriteRunsToOk : Prop :=
  ∀ (s : State) (addr : BitVec 7) (n : Nat) (ob ib : Memory) (rest : List Request) (a0 c : Word) (x : Nat → Word)
    (more : List Word),
    s.mode = .running → s.pc = .idle → s.cfg ≠ none → 1 ≤ n → n ≤ 255 →
    s.inbox = ⟨⟨0x10#32 ||| (addr.setWidth 32 <<< 8), BitVec.ofNat 32 n, 0⟩, ob, ib⟩ :: rest →
    s.env = a0 :: ((List.range n).map x ++ c :: more) → a0.getLsbD 14 = false →
    (∀ k, k < n → classify (x k) = none ∧ (x k).getLsbD 0 = true) → classify c = none → c.getLsbD 6 = true →
    ∃ t, runsTo (2 * n + 6) s t ∧ t.mode = .running ∧ t.pc = .idle ∧ t.cfg = s.cfg ∧ t.result = some .ok ∧
      t.inbox = rest ∧ t.env = more ∧ t.i = n ∧ t.delivered = s.delivered ++ [⟨.ok, none⟩] ∧ t.inBuf = s.inBuf ∧
      t.hist = s.hist ++ ([.rd 0x18 a0, .wr 0x04 (BitVec.ofNat 32 (0x2000 + n * 65536 + addr.toNat * 2))] ++
        ((List.range n).flatMap fun k => [.rd 0x18 (x k), .wr 0x24 (BitVec.ofNat 32 (memRead ob k).toNat)]) ++
        [.rd 0x18 c, .wr 0x04 0x4000])

/-- R201, R204, R208: a whole READ with no abort in which every poll succeeds at once: from IDLE back to IDLE in `2n + 4` steps
with `2n + 2` accesses; the bytes read stand in `InBuf` in order, and the host gets the buffer back (R267). That the bytes past them
keep the caller's values is the spec's own choice (D27, log 21). -/
def Obligations.ReadRunsToOk : Prop :=
  ∀ (s : State) (addr : BitVec 7) (n : Nat) (ob ib : Memory) (rest : List Request) (a0 : Word) (x d : Nat → Word)
    (more : List Word),
    s.mode = .running → s.pc = .idle → s.cfg ≠ none → 1 ≤ n → n ≤ 255 → ib.wf = true →
    s.inbox = ⟨⟨0x11#32 ||| (addr.setWidth 32 <<< 8), 0, BitVec.ofNat 32 n⟩, ob, ib⟩ :: rest →
    s.env = a0 :: (((List.range n).flatMap fun k => [x k, d k]) ++ more) → a0.getLsbD 14 = false →
    (∀ k, k < n → classify (x k) = none ∧ (x k).getLsbD 2 = true) →
    ∃ t, runsTo (2 * n + 4) s t ∧ t.mode = .running ∧ t.pc = .idle ∧ t.cfg = s.cfg ∧ t.result = some .ok ∧
      t.inbox = rest ∧ t.env = more ∧ t.j = n ∧ t.delivered = s.delivered ++ [⟨.ok, some t.inBuf⟩] ∧
      t.outBuf = s.outBuf ∧
      (∀ k, k < n → (memRead t.inBuf k).toNat = (d k).toNat % 256) ∧ (∀ k, n ≤ k → memRead t.inBuf k = memRead ib k) ∧
      t.hist = s.hist ++ ([.rd 0x18 a0, .wr 0x04 (BitVec.ofNat 32 (0x02002400 + n * 65536 + addr.toNat * 2))] ++
        ((List.range n).flatMap fun k => [.rd 0x18 (x k), .rd 0x24 (d k)]))

/-- R202, R204, R112: a whole WRITE_READ with no abort in which every poll succeeds at once: no STOP and no START_PENDING poll
between the phases, one repeated START, `2m + 2n + 4` accesses; the host gets the buffer back (R267). That the bytes past the
`n` read keep the caller's values is the spec's own choice (D27, log 21). -/
def Obligations.WriteReadRunsToOk : Prop :=
  ∀ (s : State) (addr : BitVec 7) (m n : Nat) (ob ib : Memory) (rest : List Request) (a0 c : Word) (w x d : Nat → Word)
    (more : List Word),
    s.mode = .running → s.pc = .idle → s.cfg ≠ none → 1 ≤ m → m ≤ 255 → 1 ≤ n → n ≤ 255 → ib.wf = true →
    s.inbox = ⟨⟨0x12#32 ||| (addr.setWidth 32 <<< 8), BitVec.ofNat 32 m, BitVec.ofNat 32 n⟩, ob, ib⟩ :: rest →
    s.env = a0 :: ((List.range m).map w ++ c :: (((List.range n).flatMap fun k => [x k, d k]) ++ more)) →
    a0.getLsbD 14 = false → (∀ k, k < m → classify (w k) = none ∧ (w k).getLsbD 0 = true) →
    classify c = none → c.getLsbD 6 = true → (∀ k, k < n → classify (x k) = none ∧ (x k).getLsbD 2 = true) →
    ∃ t, runsTo (2 * m + 2 * n + 6) s t ∧ t.mode = .running ∧ t.pc = .idle ∧ t.cfg = s.cfg ∧ t.result = some .ok ∧
      t.inbox = rest ∧ t.env = more ∧ t.delivered = s.delivered ++ [⟨.ok, some t.inBuf⟩] ∧
      (∀ k, k < n → (memRead t.inBuf k).toNat = (d k).toNat % 256) ∧ (∀ k, n ≤ k → memRead t.inBuf k = memRead ib k) ∧
      t.hist = s.hist ++ ([.rd 0x18 a0, .wr 0x04 (BitVec.ofNat 32 (0x2000 + m * 65536 + addr.toNat * 2))] ++
        ((List.range m).flatMap fun k => [.rd 0x18 (w k), .wr 0x24 (BitVec.ofNat 32 (memRead ob k).toNat)]) ++
        [.rd 0x18 c, .wr 0x04 (BitVec.ofNat 32 (0x02002400 + n * 65536 + addr.toNat * 2))] ++
        ((List.range n).flatMap fun k => [.rd 0x18 (x k), .rd 0x24 (d k)]))

/-- R81, R296, as a bound: it is enough for an operation in flight to return to IDLE, whatever R81 asks, that 769 of the coming
listed answers would each end any poll, however many others stand between them (769: one for the address, one for each of 255 bytes sent,
one for the completion, two for each of 255 bytes received, two for a flush and its abort). -/
def Obligations.OperationReturnsUnderProgress : Prop :=
  ∀ s : State, s.Inv → s.mode = .running → 769 ≤ s.env.countP releasing →
    ∃ k t, k ≤ s.env.length + 261 ∧ runsTo k s t ∧ t.mode = .running ∧ t.pc = .idle

/-- R252: the words of a result, for the results with parameters and the ten without. -/
def Obligations.ResultWords : Prop :=
  (∀ p, (Result.okParams p).words = (0x00, timingWord p, delayWord p)) ∧
  (∀ p p', (Result.okParams p).words = (Result.okParams p').words → p = p') ∧
  Result.ok.words = (0x00, 0, 0) ∧
  (Result.configErr .frequencyTooHigh).words = (0x01, 0, 0) ∧ (Result.configErr .ratioOutOfRange).words = (0x02, 0, 0) ∧
  (Result.err .busError).words = (0x10, 0, 0) ∧ (Result.err .arbitrationLost).words = (0x11, 0, 0) ∧
  (Result.err .notAcknowledge).words = (0x12, 0, 0) ∧ (Result.err .lengthError).words = (0x13, 0, 0) ∧
  (Result.defect .prescalerOutOfRange).words = (0x20, 0, 0) ∧ (Result.defect .fieldOverflow).words = (0x21, 0, 0) ∧
  (Result.defect .zeroTargetFrequency).words = (0x22, 0, 0) ∧
  (Result.classified none).words = (0x00, 0, 0) ∧
  (Result.classified (some .busError)).words = (0x10, 0, 0) ∧
  (Result.classified (some .arbitrationLost)).words = (0x11, 0, 0) ∧
  (Result.classified (some .notAcknowledge)).words = (0x12, 0, 0)

/-! ### EnvProgress (20_memory R81) -/

/-- R81: the premise EnvProgress, which asks at each poll for an answer that ends it (START_PENDING = 0 at ADDR_WAIT; an abort flag
or the awaited flag at TX_POLL, TC_POLL and RX_POLL), says that in the run every sequence of consecutive polls at one control
point is finite. -/
def Obligations.EnvProgressMeansFinitePolls : Prop :=
  (∀ v : Word,
    (pollEnds .addrWait v = true ↔ v.getLsbD 14 = false) ∧
    (pollEnds .txPoll v = true ↔ classify v ≠ none ∨ v.getLsbD 0 = true) ∧
    (pollEnds .tcPoll v = true ↔ classify v ≠ none ∨ v.getLsbD 6 = true) ∧
    (pollEnds .rxPoll v = true ↔ classify v ≠ none ∨ v.getLsbD 2 = true)) ∧
  (∀ p, isPoll p = true ↔ p = .addrWait ∨ p = .txPoll ∨ p = .tcPoll ∨ p = .rxPoll) ∧
  ∀ s : State, EnvProgress s ↔
    ∀ k u, runsTo k s u → u.mode = .running → isPoll u.pc = true → ∃ m t, runsTo m u t ∧ t.pc ≠ u.pc

/-- R81, R250, R296: under EnvProgress every operation in flight returns to IDLE. -/
def Obligations.OperationReturnsUnderEnvProgress : Prop :=
  ∀ s : State, s.Inv → s.mode = .running → EnvProgress s → ∃ k t, runsTo k s t ∧ t.mode = .running ∧ t.pc = .idle
end

