-- ==== Sys2Proof/Laws/State.lean ====
section
/-! SUPPORT. What each shared update does to each field: one lemma per field per update, true by rfl. -/

namespace Sys2Proof.Machine

@[simp] theorem portRead_mode (off : Offset) (s : State) : (portRead off s).mode = s.mode := rfl
@[simp] theorem portRead_pc (off : Offset) (s : State) : (portRead off s).pc = s.pc := rfl
@[simp] theorem portRead_op (off : Offset) (s : State) : (portRead off s).op = s.op := rfl
@[simp] theorem portRead_addr (off : Offset) (s : State) : (portRead off s).addr = s.addr := rfl
@[simp] theorem portRead_outLen (off : Offset) (s : State) : (portRead off s).outLen = s.outLen := rfl
@[simp] theorem portRead_inLen (off : Offset) (s : State) : (portRead off s).inLen = s.inLen := rfl
@[simp] theorem portRead_i (off : Offset) (s : State) : (portRead off s).i = s.i := rfl
@[simp] theorem portRead_j (off : Offset) (s : State) : (portRead off s).j = s.j := rfl
@[simp] theorem portRead_err (off : Offset) (s : State) : (portRead off s).err = s.err := rfl
@[simp] theorem portRead_params (off : Offset) (s : State) : (portRead off s).params = s.params := rfl
@[simp] theorem portRead_cfg (off : Offset) (s : State) : (portRead off s).cfg = s.cfg := rfl
@[simp] theorem portRead_result (off : Offset) (s : State) : (portRead off s).result = s.result := rfl
@[simp] theorem portRead_hist (off : Offset) (s : State) : (portRead off s).hist = s.hist ++ [.rd off (draw s)] := rfl
@[simp] theorem portRead_outBuf (off : Offset) (s : State) : (portRead off s).outBuf = s.outBuf := rfl
@[simp] theorem portRead_inBuf (off : Offset) (s : State) : (portRead off s).inBuf = s.inBuf := rfl
@[simp] theorem portRead_inbox (off : Offset) (s : State) : (portRead off s).inbox = s.inbox := rfl
@[simp] theorem portRead_delivered (off : Offset) (s : State) : (portRead off s).delivered = s.delivered := rfl
@[simp] theorem portRead_env (off : Offset) (s : State) : (portRead off s).env = s.env.tail := rfl
@[simp] theorem portRead_draws (off : Offset) (s : State) : (portRead off s).draws = s.draws + 1 := rfl

@[simp] theorem portWrite_mode (off : Offset) (v : Word) (s : State) : (portWrite off v s).mode = s.mode := rfl
@[simp] theorem portWrite_pc (off : Offset) (v : Word) (s : State) : (portWrite off v s).pc = s.pc := rfl
@[simp] theorem portWrite_op (off : Offset) (v : Word) (s : State) : (portWrite off v s).op = s.op := rfl
@[simp] theorem portWrite_addr (off : Offset) (v : Word) (s : State) : (portWrite off v s).addr = s.addr := rfl
@[simp] theorem portWrite_outLen (off : Offset) (v : Word) (s : State) : (portWrite off v s).outLen = s.outLen := rfl
@[simp] theorem portWrite_inLen (off : Offset) (v : Word) (s : State) : (portWrite off v s).inLen = s.inLen := rfl
@[simp] theorem portWrite_i (off : Offset) (v : Word) (s : State) : (portWrite off v s).i = s.i := rfl
@[simp] theorem portWrite_j (off : Offset) (v : Word) (s : State) : (portWrite off v s).j = s.j := rfl
@[simp] theorem portWrite_err (off : Offset) (v : Word) (s : State) : (portWrite off v s).err = s.err := rfl
@[simp] theorem portWrite_params (off : Offset) (v : Word) (s : State) : (portWrite off v s).params = s.params := rfl
@[simp] theorem portWrite_cfg (off : Offset) (v : Word) (s : State) : (portWrite off v s).cfg = s.cfg := rfl
@[simp] theorem portWrite_result (off : Offset) (v : Word) (s : State) : (portWrite off v s).result = s.result := rfl
@[simp] theorem portWrite_hist (off : Offset) (v : Word) (s : State) : (portWrite off v s).hist = s.hist ++ [.wr off v] := rfl
@[simp] theorem portWrite_outBuf (off : Offset) (v : Word) (s : State) : (portWrite off v s).outBuf = s.outBuf := rfl
@[simp] theorem portWrite_inBuf (off : Offset) (v : Word) (s : State) : (portWrite off v s).inBuf = s.inBuf := rfl
@[simp] theorem portWrite_inbox (off : Offset) (v : Word) (s : State) : (portWrite off v s).inbox = s.inbox := rfl
@[simp] theorem portWrite_delivered (off : Offset) (v : Word) (s : State) : (portWrite off v s).delivered = s.delivered := rfl
@[simp] theorem portWrite_env (off : Offset) (v : Word) (s : State) : (portWrite off v s).env = s.env := rfl
@[simp] theorem portWrite_draws (off : Offset) (v : Word) (s : State) : (portWrite off v s).draws = s.draws := rfl

@[simp] theorem refuse_mode (r : RefuseReason) (s : State) : (refuse r s).mode = .refused r := rfl
@[simp] theorem refuse_pc (r : RefuseReason) (s : State) : (refuse r s).pc = s.pc := rfl
@[simp] theorem refuse_op (r : RefuseReason) (s : State) : (refuse r s).op = s.op := rfl
@[simp] theorem refuse_addr (r : RefuseReason) (s : State) : (refuse r s).addr = s.addr := rfl
@[simp] theorem refuse_outLen (r : RefuseReason) (s : State) : (refuse r s).outLen = s.outLen := rfl
@[simp] theorem refuse_inLen (r : RefuseReason) (s : State) : (refuse r s).inLen = s.inLen := rfl
@[simp] theorem refuse_i (r : RefuseReason) (s : State) : (refuse r s).i = s.i := rfl
@[simp] theorem refuse_j (r : RefuseReason) (s : State) : (refuse r s).j = s.j := rfl
@[simp] theorem refuse_err (r : RefuseReason) (s : State) : (refuse r s).err = s.err := rfl
@[simp] theorem refuse_params (r : RefuseReason) (s : State) : (refuse r s).params = s.params := rfl
@[simp] theorem refuse_cfg (r : RefuseReason) (s : State) : (refuse r s).cfg = s.cfg := rfl
@[simp] theorem refuse_result (r : RefuseReason) (s : State) : (refuse r s).result = s.result := rfl
@[simp] theorem refuse_hist (r : RefuseReason) (s : State) : (refuse r s).hist = s.hist := rfl
@[simp] theorem refuse_outBuf (r : RefuseReason) (s : State) : (refuse r s).outBuf = s.outBuf := rfl
@[simp] theorem refuse_inBuf (r : RefuseReason) (s : State) : (refuse r s).inBuf = s.inBuf := rfl
@[simp] theorem refuse_inbox (r : RefuseReason) (s : State) : (refuse r s).inbox = s.inbox := rfl
@[simp] theorem refuse_delivered (r : RefuseReason) (s : State) : (refuse r s).delivered = s.delivered := rfl
@[simp] theorem refuse_env (r : RefuseReason) (s : State) : (refuse r s).env = s.env := rfl
@[simp] theorem refuse_draws (r : RefuseReason) (s : State) : (refuse r s).draws = s.draws := rfl

@[simp] theorem complete_mode (r : Result) (s : State) : (complete r s).mode = s.mode := rfl
@[simp] theorem complete_pc (r : Result) (s : State) : (complete r s).pc = .done := rfl
@[simp] theorem complete_op (r : Result) (s : State) : (complete r s).op = s.op := rfl
@[simp] theorem complete_addr (r : Result) (s : State) : (complete r s).addr = s.addr := rfl
@[simp] theorem complete_outLen (r : Result) (s : State) : (complete r s).outLen = s.outLen := rfl
@[simp] theorem complete_inLen (r : Result) (s : State) : (complete r s).inLen = s.inLen := rfl
@[simp] theorem complete_i (r : Result) (s : State) : (complete r s).i = s.i := rfl
@[simp] theorem complete_j (r : Result) (s : State) : (complete r s).j = s.j := rfl
@[simp] theorem complete_err (r : Result) (s : State) : (complete r s).err = s.err := rfl
@[simp] theorem complete_params (r : Result) (s : State) : (complete r s).params = s.params := rfl
@[simp] theorem complete_cfg (r : Result) (s : State) : (complete r s).cfg = s.cfg := rfl
@[simp] theorem complete_result (r : Result) (s : State) : (complete r s).result = some r := rfl
@[simp] theorem complete_hist (r : Result) (s : State) : (complete r s).hist = s.hist := rfl
@[simp] theorem complete_outBuf (r : Result) (s : State) : (complete r s).outBuf = s.outBuf := rfl
@[simp] theorem complete_inBuf (r : Result) (s : State) : (complete r s).inBuf = s.inBuf := rfl
@[simp] theorem complete_inbox (r : Result) (s : State) : (complete r s).inbox = s.inbox := rfl
@[simp] theorem complete_delivered (r : Result) (s : State) : (complete r s).delivered = s.delivered := rfl
@[simp] theorem complete_env (r : Result) (s : State) : (complete r s).env = s.env := rfl
@[simp] theorem complete_draws (r : Result) (s : State) : (complete r s).draws = s.draws := rfl

@[simp] theorem takeAbort_mode (e : TransactionError) (s : State) : (takeAbort e s).mode = s.mode := rfl
@[simp] theorem takeAbort_pc (e : TransactionError) (s : State) : (takeAbort e s).pc = .abortClear := rfl
@[simp] theorem takeAbort_op (e : TransactionError) (s : State) : (takeAbort e s).op = s.op := rfl
@[simp] theorem takeAbort_addr (e : TransactionError) (s : State) : (takeAbort e s).addr = s.addr := rfl
@[simp] theorem takeAbort_outLen (e : TransactionError) (s : State) : (takeAbort e s).outLen = s.outLen := rfl
@[simp] theorem takeAbort_inLen (e : TransactionError) (s : State) : (takeAbort e s).inLen = s.inLen := rfl
@[simp] theorem takeAbort_i (e : TransactionError) (s : State) : (takeAbort e s).i = s.i := rfl
@[simp] theorem takeAbort_j (e : TransactionError) (s : State) : (takeAbort e s).j = s.j := rfl
@[simp] theorem takeAbort_err (e : TransactionError) (s : State) : (takeAbort e s).err = some e := rfl
@[simp] theorem takeAbort_params (e : TransactionError) (s : State) : (takeAbort e s).params = s.params := rfl
@[simp] theorem takeAbort_cfg (e : TransactionError) (s : State) : (takeAbort e s).cfg = s.cfg := rfl
@[simp] theorem takeAbort_result (e : TransactionError) (s : State) : (takeAbort e s).result = s.result := rfl
@[simp] theorem takeAbort_hist (e : TransactionError) (s : State) : (takeAbort e s).hist = s.hist := rfl
@[simp] theorem takeAbort_outBuf (e : TransactionError) (s : State) : (takeAbort e s).outBuf = s.outBuf := rfl
@[simp] theorem takeAbort_inBuf (e : TransactionError) (s : State) : (takeAbort e s).inBuf = s.inBuf := rfl
@[simp] theorem takeAbort_inbox (e : TransactionError) (s : State) : (takeAbort e s).inbox = s.inbox := rfl
@[simp] theorem takeAbort_delivered (e : TransactionError) (s : State) : (takeAbort e s).delivered = s.delivered := rfl
@[simp] theorem takeAbort_env (e : TransactionError) (s : State) : (takeAbort e s).env = s.env := rfl
@[simp] theorem takeAbort_draws (e : TransactionError) (s : State) : (takeAbort e s).draws = s.draws := rfl

@[simp] theorem finish_mode (s : State) : (finish s).mode = s.mode := rfl
@[simp] theorem finish_pc (s : State) : (finish s).pc = .idle := rfl
@[simp] theorem finish_op (s : State) : (finish s).op = none := rfl
@[simp] theorem finish_addr (s : State) : (finish s).addr = s.addr := rfl
@[simp] theorem finish_outLen (s : State) : (finish s).outLen = s.outLen := rfl
@[simp] theorem finish_inLen (s : State) : (finish s).inLen = s.inLen := rfl
@[simp] theorem finish_i (s : State) : (finish s).i = s.i := rfl
@[simp] theorem finish_j (s : State) : (finish s).j = s.j := rfl
@[simp] theorem finish_err (s : State) : (finish s).err = none := rfl
@[simp] theorem finish_params (s : State) : (finish s).params = none := rfl
@[simp] theorem finish_cfg (s : State) : (finish s).cfg = s.cfg := rfl
@[simp] theorem finish_result (s : State) : (finish s).result = s.result := rfl
@[simp] theorem finish_hist (s : State) : (finish s).hist = s.hist := rfl
@[simp] theorem finish_outBuf (s : State) : (finish s).outBuf = s.outBuf := rfl
@[simp] theorem finish_inBuf (s : State) : (finish s).inBuf = s.inBuf := rfl
@[simp] theorem finish_inbox (s : State) : (finish s).inbox = s.inbox := rfl
@[simp] theorem finish_delivered (s : State) : (finish s).delivered = s.delivered ++ replies s := rfl
@[simp] theorem finish_env (s : State) : (finish s).env = s.env := rfl
@[simp] theorem finish_draws (s : State) : (finish s).draws = s.draws := rfl

@[simp] theorem failLength_mode (s : State) : (failLength s).mode = s.mode := rfl
@[simp] theorem failLength_pc (s : State) : (failLength s).pc = .done := rfl
@[simp] theorem failLength_op (s : State) : (failLength s).op = s.op := rfl
@[simp] theorem failLength_addr (s : State) : (failLength s).addr = s.addr := rfl
@[simp] theorem failLength_outLen (s : State) : (failLength s).outLen = s.outLen := rfl
@[simp] theorem failLength_inLen (s : State) : (failLength s).inLen = s.inLen := rfl
@[simp] theorem failLength_i (s : State) : (failLength s).i = 0 := rfl
@[simp] theorem failLength_j (s : State) : (failLength s).j = 0 := rfl
@[simp] theorem failLength_err (s : State) : (failLength s).err = s.err := rfl
@[simp] theorem failLength_params (s : State) : (failLength s).params = s.params := rfl
@[simp] theorem failLength_cfg (s : State) : (failLength s).cfg = s.cfg := rfl
@[simp] theorem failLength_result (s : State) : (failLength s).result = some (.err .lengthError) := rfl
@[simp] theorem failLength_hist (s : State) : (failLength s).hist = s.hist := rfl
@[simp] theorem failLength_outBuf (s : State) : (failLength s).outBuf = s.outBuf := rfl
@[simp] theorem failLength_inBuf (s : State) : (failLength s).inBuf = s.inBuf := rfl
@[simp] theorem failLength_inbox (s : State) : (failLength s).inbox = s.inbox := rfl
@[simp] theorem failLength_delivered (s : State) : (failLength s).delivered = s.delivered := rfl
@[simp] theorem failLength_env (s : State) : (failLength s).env = s.env := rfl
@[simp] theorem failLength_draws (s : State) : (failLength s).draws = s.draws := rfl

@[simp] theorem setupTransaction_mode (a : BitVec 7) (m n : Nat) (s : State) : (setupTransaction a m n s).mode = s.mode := rfl
@[simp] theorem setupTransaction_pc (a : BitVec 7) (m n : Nat) (s : State) : (setupTransaction a m n s).pc = .addrWait := rfl
@[simp] theorem setupTransaction_op (a : BitVec 7) (m n : Nat) (s : State) : (setupTransaction a m n s).op = s.op := rfl
@[simp] theorem setupTransaction_addr (a : BitVec 7) (m n : Nat) (s : State) : (setupTransaction a m n s).addr = a := rfl
@[simp] theorem setupTransaction_outLen (a : BitVec 7) (m n : Nat) (s : State) : (setupTransaction a m n s).outLen = m := rfl
@[simp] theorem setupTransaction_inLen (a : BitVec 7) (m n : Nat) (s : State) : (setupTransaction a m n s).inLen = n := rfl
@[simp] theorem setupTransaction_i (a : BitVec 7) (m n : Nat) (s : State) : (setupTransaction a m n s).i = 0 := rfl
@[simp] theorem setupTransaction_j (a : BitVec 7) (m n : Nat) (s : State) : (setupTransaction a m n s).j = 0 := rfl
@[simp] theorem setupTransaction_err (a : BitVec 7) (m n : Nat) (s : State) : (setupTransaction a m n s).err = none := rfl
@[simp] theorem setupTransaction_params (a : BitVec 7) (m n : Nat) (s : State) : (setupTransaction a m n s).params = s.params := rfl
@[simp] theorem setupTransaction_cfg (a : BitVec 7) (m n : Nat) (s : State) : (setupTransaction a m n s).cfg = s.cfg := rfl
@[simp] theorem setupTransaction_result (a : BitVec 7) (m n : Nat) (s : State) : (setupTransaction a m n s).result = s.result := rfl
@[simp] theorem setupTransaction_hist (a : BitVec 7) (m n : Nat) (s : State) : (setupTransaction a m n s).hist = s.hist := rfl
@[simp] theorem setupTransaction_outBuf (a : BitVec 7) (m n : Nat) (s : State) : (setupTransaction a m n s).outBuf = s.outBuf := rfl
@[simp] theorem setupTransaction_inBuf (a : BitVec 7) (m n : Nat) (s : State) : (setupTransaction a m n s).inBuf = s.inBuf := rfl
@[simp] theorem setupTransaction_inbox (a : BitVec 7) (m n : Nat) (s : State) : (setupTransaction a m n s).inbox = s.inbox := rfl
@[simp] theorem setupTransaction_delivered (a : BitVec 7) (m n : Nat) (s : State) : (setupTransaction a m n s).delivered = s.delivered := rfl
@[simp] theorem setupTransaction_env (a : BitVec 7) (m n : Nat) (s : State) : (setupTransaction a m n s).env = s.env := rfl
@[simp] theorem setupTransaction_draws (a : BitVec 7) (m n : Nat) (s : State) : (setupTransaction a m n s).draws = s.draws := rfl

@[simp] theorem accept_mode (x : Instr) (q : Request) (rest : List Request) (s : State) : (accept x q rest s).mode = s.mode := rfl
@[simp] theorem accept_pc (x : Instr) (q : Request) (rest : List Request) (s : State) : (accept x q rest s).pc = s.pc := rfl
@[simp] theorem accept_op (x : Instr) (q : Request) (rest : List Request) (s : State) : (accept x q rest s).op = s.op := rfl
@[simp] theorem accept_addr (x : Instr) (q : Request) (rest : List Request) (s : State) : (accept x q rest s).addr = s.addr := rfl
@[simp] theorem accept_outLen (x : Instr) (q : Request) (rest : List Request) (s : State) : (accept x q rest s).outLen = s.outLen := rfl
@[simp] theorem accept_inLen (x : Instr) (q : Request) (rest : List Request) (s : State) : (accept x q rest s).inLen = s.inLen := rfl
@[simp] theorem accept_i (x : Instr) (q : Request) (rest : List Request) (s : State) : (accept x q rest s).i = s.i := rfl
@[simp] theorem accept_j (x : Instr) (q : Request) (rest : List Request) (s : State) : (accept x q rest s).j = s.j := rfl
@[simp] theorem accept_err (x : Instr) (q : Request) (rest : List Request) (s : State) : (accept x q rest s).err = s.err := rfl
@[simp] theorem accept_params (x : Instr) (q : Request) (rest : List Request) (s : State) : (accept x q rest s).params = s.params := rfl
@[simp] theorem accept_cfg (x : Instr) (q : Request) (rest : List Request) (s : State) : (accept x q rest s).cfg = s.cfg := rfl
@[simp] theorem accept_result (x : Instr) (q : Request) (rest : List Request) (s : State) : (accept x q rest s).result = s.result := rfl
@[simp] theorem accept_hist (x : Instr) (q : Request) (rest : List Request) (s : State) : (accept x q rest s).hist = s.hist := rfl
@[simp] theorem accept_outBuf (x : Instr) (q : Request) (rest : List Request) (s : State) : (accept x q rest s).outBuf = if takesOut x then q.outBuf else s.outBuf := rfl
@[simp] theorem accept_inBuf (x : Instr) (q : Request) (rest : List Request) (s : State) : (accept x q rest s).inBuf = if takesIn x then q.inBuf else s.inBuf := rfl
@[simp] theorem accept_inbox (x : Instr) (q : Request) (rest : List Request) (s : State) : (accept x q rest s).inbox = rest := rfl
@[simp] theorem accept_delivered (x : Instr) (q : Request) (rest : List Request) (s : State) : (accept x q rest s).delivered = s.delivered := rfl
@[simp] theorem accept_env (x : Instr) (q : Request) (rest : List Request) (s : State) : (accept x q rest s).env = s.env := rfl
@[simp] theorem accept_draws (x : Instr) (q : Request) (rest : List Request) (s : State) : (accept x q rest s).draws = s.draws := rfl

end Sys2Proof.Machine
end

