-- ==== Sys2Proof/Laws/Exec.lean ====
section
/-! SUPPORT. What the shared operations, each instruction and the step can do, said once: a proof cites these and does not
unfold the definitions. -/

namespace Sys2Proof.Machine

/-- A poll takes the abort of its snapshot, or else goes on or stays by the awaited flag (R193). -/
theorem poll_cases (v : Word) (awaited : Bool) (ready stay : ControlPoint) (t : State) :
    (∃ e, classify v = some e ∧ poll v awaited ready stay t = takeAbort e t) ∨
      (classify v = none ∧ awaited = true ∧ poll v awaited ready stay t = { t with pc := ready }) ∨
      (classify v = none ∧ awaited = false ∧ poll v awaited ready stay t = { t with pc := stay }) := by
  unfold poll
  cases hc : classify v with
  | some e => exact .inl ⟨e, rfl, rfl⟩
  | none => cases awaited <;> simp

/-- The classifier names one of the three abort kinds or none (R240, R242). -/
theorem classify_cases (v : Word) :
    classify v = some .busError ∨ classify v = some .arbitrationLost ∨ classify v = some .notAcknowledge ∨
      classify v = none := by
  unfold classify
  cases flagBerr v <;> cases flagArlo v <;> cases flagNackf v <;> simp

/-- A transaction's dispatch is refused, fails its length, or is set up (R181 to R183). -/
theorem startTransaction_cases (op : Op) (a : BitVec 7) (m n : Nat) (s : State) :
    (s.cfg = none ∧ startTransaction op a m n s = refuse .notConfigured { s with op := some op }) ∨
      (s.cfg ≠ none ∧ lengthsOk op m n = true ∧
        startTransaction op a m n s = setupTransaction a m n { s with op := some op }) ∨
      (s.cfg ≠ none ∧ lengthsOk op m n = false ∧ startTransaction op a m n s = failLength { s with op := some op }) := by
  unfold startTransaction
  by_cases hc : s.cfg = none
  · exact .inl ⟨hc, by simp [hc]⟩
  · cases hl : lengthsOk op m n
    · exact .inr (.inr ⟨hc, rfl, by simp [hc]⟩)
    · exact .inr (.inl ⟨hc, rfl, by simp [hc]⟩)

/-- INIT starts its register writes on Ok, and reports the outcome otherwise (R151). -/
theorem execInit_cases {clk f : Word} {s t : State} (h : execInit clk f s = .next t) :
    (∃ p, timingCalc clk f = .ok p ∧ t = { s with op := some .init, params := some p, pc := .initT }) ∨
      ((∀ p, timingCalc clk f ≠ .ok p) ∧
        t = complete (timingCalc clk f).toResult { s with op := some .init }) := by
  unfold execInit at h
  cases hc : timingCalc clk f with
  | ok p => rw [hc] at h; exact .inl ⟨p, rfl, by simpa using h.symm⟩
  | configErr e => rw [hc] at h; exact .inr ⟨by simp, by simpa [CalcOutcome.toResult] using h.symm⟩
  | defect d => rw [hc] at h; exact .inr ⟨by simp, by simpa [CalcOutcome.toResult] using h.symm⟩

/-- STATUS_RD: one case for each control point that issues it, and the refusal elsewhere (R210). -/
theorem execStatusRd_cases {s t : State} (h : execStatusRd s = .next t) :
    (s.pc = .addrWait ∧ flagStartPending (draw s) = true ∧ t = { portRead statusOff s with pc := .addrWait }) ∨
      (s.pc = .addrWait ∧ flagStartPending (draw s) = false ∧ t = { portRead statusOff s with pc := .addrProg }) ∨
      (s.pc = .txPoll ∧ t = poll (draw s) (flagTxe (draw s)) .txData .txPoll (portRead statusOff s)) ∨
      (s.pc = .tcPoll ∧ t = poll (draw s) (flagTc (draw s)) (if s.op = some .write then .stopIssue else .restartProg)
        .tcPoll (portRead statusOff s)) ∨
      (s.pc = .rxPoll ∧ t = poll (draw s) (flagRxne (draw s)) .rxData .rxPoll (portRead statusOff s)) ∨
      (s.pc = .flushRead ∧ flagTxis (draw s) = true ∧ t = { portRead statusOff s with pc := .flushDummy }) ∨
      (s.pc = .flushRead ∧ flagTxis (draw s) = false ∧ t = { portRead statusOff s with pc := .flushTxe }) ∨
      (issuedSelector s.pc ≠ some 0x018 ∧ t = refuse .unknownPortAccess s) := by
  unfold execStatusRd at h
  cases hp : s.pc <;> simp only [hp] at h <;> injection h with h <;> subst h <;> simp [issuedSelector]

/-- DATA_RD at RX_DATA stores a byte, the last or not the last; elsewhere it is refused (R211, R192). -/
theorem execDataRd_cases {s t : State} (h : execDataRd s = .next t) :
    (s.pc = .rxData ∧ s.j < s.inLen ∧
      ∃ u, u = { portRead dataOff s with inBuf := memWrite s.inBuf s.j (dataByte (draw s)), j := s.j + 1 } ∧
        ((s.j + 1 = s.inLen ∧ t = complete .ok u) ∨ (s.j + 1 ≠ s.inLen ∧ t = { u with pc := .rxPoll }))) ∨
      (s.pc ≠ .rxData ∧ t = refuse .unknownPortAccess s) := by
  unfold execDataRd at h
  cases hp : s.pc <;> simp only [hp] at h
  case rxData =>
    split at h
    · rename_i hj
      injection h with h
      refine .inl ⟨rfl, hj, _, rfl, ?_⟩
      by_cases he : s.j + 1 = s.inLen
      · exact .inl ⟨he, by simpa [he] using h.symm⟩
      · exact .inr ⟨he, by simpa [he] using h.symm⟩
    · exact absurd h (by simp)
  all_goals
    injection h with h
    exact .inr ⟨by simp, h.symm⟩

/-- CTRL_WR writes the control point's operand and goes on, completing the operation after a STOP; elsewhere it is refused
(R212). -/
theorem execCtrlWr_cases {s t : State} (h : execCtrlWr s = .next t) :
    (s.pc = .addrProg ∧ (s.op = some .write ∨ s.op = some .writeRead) ∧
      t = { portWrite ctrlOff (startWriteWord s.addr s.outLen) s with pc := .txPoll }) ∨
      (s.pc = .addrProg ∧ s.op = some .read ∧
        t = { portWrite ctrlOff (startReadWord s.addr s.inLen) s with pc := .rxPoll }) ∨
      (s.pc = .stopIssue ∧ t = complete .ok (portWrite ctrlOff stopWord s)) ∨
      (s.pc = .restartProg ∧ t = { portWrite ctrlOff (startReadWord s.addr s.inLen) s with pc := .rxPoll }) ∨
      (ctrlOperand s = none ∧ t = refuse .unknownPortAccess s) := by
  unfold execCtrlWr at h
  unfold ctrlOperand at h ⊢
  cases hp : s.pc <;> simp only [hp] at h ⊢
  case addrProg =>
    rcases ho : s.op with _ | o
    · simp only [ho] at h ⊢
      injection h with h
      simp [h]
    · cases o <;> simp only [ho] at h ⊢ <;> injection h with h <;> simp [← h]
  all_goals
    injection h with h
    simp [← h]

/-- TIMING_WR at INIT_T writes the timing word; elsewhere it is refused (R213, R152). -/
theorem execTimingWr_cases {s t : State} (h : execTimingWr s = .next t) :
    (∃ p, s.pc = .initT ∧ s.params = some p ∧ t = { portWrite timingOff (timingWord p) s with pc := .initD }) ∨
      ((s.pc ≠ .initT ∨ s.params = none) ∧ t = refuse .unknownPortAccess s) := by
  unfold execTimingWr at h
  cases hp : s.pc <;> cases hq : s.params <;> simp only [hp, hq] at h <;> injection h with h <;> simp [← h]

/-- DELAY_WR at INIT_D writes the delay word, sets `cfg` and completes; elsewhere it is refused (R217, R152). -/
theorem execDelayWr_cases {s t : State} (h : execDelayWr s = .next t) :
    (∃ p, s.pc = .initD ∧ s.params = some p ∧
      t = complete (.okParams p) { portWrite delayOff (delayWord p) s with cfg := some p, params := none }) ∨
      ((s.pc ≠ .initD ∨ s.params = none) ∧ t = refuse .unknownPortAccess s) := by
  unfold execDelayWr at h
  cases hp : s.pc <;> cases hq : s.params <;> simp only [hp, hq] at h <;> injection h with h <;> simp [← h]

/-- STATUS_WR at FLUSH_TXE flushes and reports the NACK; elsewhere it is refused (R214, R196). -/
theorem execStatusWr_cases {s t : State} (h : execStatusWr s = .next t) :
    (s.pc = .flushTxe ∧ t = complete (.err .notAcknowledge) (portWrite statusOff txeFlush s)) ∨
      (s.pc ≠ .flushTxe ∧ t = refuse .unknownPortAccess s) := by
  unfold execStatusWr at h
  cases hp : s.pc <;> simp only [hp] at h <;> injection h with h <;> simp [← h]

/-- CLEAR_WR at ABORT_CLEAR clears the flags of the abort kind, then completes or goes to the flush; elsewhere it is refused
(R215, R195). -/
theorem execClearWr_cases {s t : State} (h : execClearWr s = .next t) :
    (∃ e v, s.pc = .abortClear ∧ s.err = some e ∧ clearOperand e = some v ∧
      ((e = .notAcknowledge ∧ t = { portWrite clearOff v s with pc := .flushRead }) ∨
        (e ≠ .notAcknowledge ∧ t = complete (.err e) (portWrite clearOff v s)))) ∨
      ((s.pc ≠ .abortClear ∨ s.err = none ∨ s.err = some .lengthError) ∧ t = refuse .unknownPortAccess s) := by
  unfold execClearWr at h
  cases hp : s.pc <;> simp only [hp] at h
  case abortClear =>
    rcases he : s.err with _ | e
    · simp only [he] at h
      injection h with h
      simp [h]
    · cases e <;> simp only [he, clearOperand] at h <;> injection h with h <;> simp [clearOperand, ← h]
  all_goals
    injection h with h
    simp [h]

/-- DATA_WR at TX_DATA sends byte `i`, at FLUSH_DUMMY the dummy word; elsewhere it is refused (R216, R187, R196). -/
theorem execDataWr_cases {s t : State} (h : execDataWr s = .next t) :
    (s.pc = .txData ∧ s.i < s.outLen ∧
      t = { portWrite dataOff (dataWord (memRead s.outBuf s.i)) s with
        i := s.i + 1, pc := if s.i + 1 = s.outLen then .tcPoll else .txPoll }) ∨
      (s.pc = .flushDummy ∧ t = complete (.err .notAcknowledge) (portWrite dataOff dummyWord s)) ∨
      (s.pc ≠ .txData ∧ s.pc ≠ .flushDummy ∧ t = refuse .unknownPortAccess s) := by
  unfold execDataWr at h
  cases hp : s.pc <;> simp only [hp] at h
  case txData =>
    split at h
    · injection h with h
      exact .inl ⟨rfl, ‹_›, h.symm⟩
    · exact absurd h (by simp)
  case flushDummy =>
    injection h with h
    simp [← h]
  all_goals
    injection h with h
    exact .inr (.inr ⟨by simp, by simp, h.symm⟩)

/-- The instruction each control point issues (R110); IDLE and DONE issue none. -/
def issuedInstr : ControlPoint → Option Instr
  | .idle => none
  | .initT => some .timingWr
  | .initD => some .delayWr
  | .addrWait => some .statusRd
  | .addrProg => some .ctrlWr
  | .txPoll => some .statusRd
  | .txData => some .dataWr
  | .tcPoll => some .statusRd
  | .stopIssue => some .ctrlWr
  | .restartProg => some .ctrlWr
  | .rxPoll => some .statusRd
  | .rxData => some .dataRd
  | .abortClear => some .clearWr
  | .flushRead => some .statusRd
  | .flushDummy => some .dataWr
  | .flushTxe => some .statusWr
  | .done => none

/-- The fetch at a control point that issues an access (R110). -/
theorem fetch_access {s : State} {i : Instr} (hm : s.mode = .running) (hi : issuedInstr s.pc = some i) :
    fetch s = .run i s := by
  unfold fetch
  rw [hm]
  cases hp : s.pc <;> rw [hp] at hi <;> simp only [issuedInstr, reduceCtorEq, Option.some.injEq] at hi <;> subst hi <;>
    simp [fetchAccess, hp, issuedSelector, decode, portWord, decodePort, decodeSelector]

/-- The step at a control point that issues an access is that access's meaning. -/
theorem step_access {s : State} {i : Instr} (hm : s.mode = .running) (hi : issuedInstr s.pc = some i) :
    step s = exec i s := by
  simp [step, fetch_access hm hi]

/-- The step at DONE is the return (R197). -/
theorem step_done {s : State} (hm : s.mode = .running) (hp : s.pc = .done) : step s = .next (finish s) := by
  simp [step, fetch, hm, hp, fetchAccess, issuedSelector]

/-- The step at IDLE with a request that decodes is the operation's meaning (R180). -/
theorem step_idle_run {s : State} {q : Request} {rest : List Request} {i : Instr} (hm : s.mode = .running) (hp : s.pc = .idle)
    (hq : s.inbox = q :: rest) (hd : decode (.cmd q.descriptor) = .ok i) : step s = exec i (accept i q rest s) := by
  simp [step, fetch, hm, hp, fetchCommand, hq, hd]

/-- The step at IDLE with a request that does not decode is the refusal (R105, R259). -/
theorem step_idle_reject {s : State} {q : Request} {rest : List Request} {r : RefuseReason} (hm : s.mode = .running)
    (hp : s.pc = .idle) (hq : s.inbox = q :: rest) (hd : decode (.cmd q.descriptor) = .error r) :
    step s = .next (refuse r { s with inbox := rest }) := by
  simp [step, fetch, hm, hp, fetchCommand, hq, hd]

/-- Everything a step that answers a next state can be. -/
theorem step_next_cases {s t : State} (h : step s = .next t) :
    s.mode = .running ∧
      ((∃ q rest i, s.pc = .idle ∧ s.inbox = q :: rest ∧ decode (.cmd q.descriptor) = .ok i ∧
          exec i (accept i q rest s) = .next t) ∨
        (∃ q rest r, s.pc = .idle ∧ s.inbox = q :: rest ∧ decode (.cmd q.descriptor) = .error r ∧
          t = refuse r { s with inbox := rest }) ∨
        (s.pc = .done ∧ t = finish s) ∨
        ∃ i, issuedInstr s.pc = some i ∧ exec i s = .next t) := by
  cases hm : s.mode with
  | refused r => simp [step, fetch, hm] at h
  | running =>
    refine ⟨rfl, ?_⟩
    by_cases hp : s.pc = .idle
    · cases hq : s.inbox with
      | nil => simp [step, fetch, hm, hp, fetchCommand, hq] at h
      | cons q rest =>
        cases hd : decode (.cmd q.descriptor) with
        | ok i => exact .inl ⟨q, rest, i, hp, rfl, hd, by rw [← step_idle_run hm hp hq hd]; exact h⟩
        | error r =>
          rw [step_idle_reject hm hp hq hd] at h
          injection h with h
          exact .inr (.inl ⟨q, rest, r, hp, rfl, hd, h.symm⟩)
    · by_cases hd : s.pc = .done
      · rw [step_done hm hd] at h
        injection h with h
        exact .inr (.inr (.inl ⟨hd, h.symm⟩))
      · obtain ⟨i, hi⟩ : ∃ i, issuedInstr s.pc = some i := by
          cases hq : s.pc <;> simp_all [issuedInstr]
        exact .inr (.inr (.inr ⟨i, hi, by rw [← step_access hm hi]; exact h⟩))

/-- A command descriptor decodes to a host operation only. -/
theorem decode_cmd_cases {d : Descriptor} {i : Instr} (h : decode (.cmd d) = .ok i) :
    (∃ c f, i = .calculate c f) ∨ (∃ c f, i = .init c f) ∨ (∃ a n, i = .write a n) ∨ (∃ a n, i = .read a n) ∨
      (∃ a m n, i = .writeRead a m n) ∨ ∃ v, i = .classify v := by
  simp only [decode, decodeDescriptor, decodeOperation] at h
  split at h
  · exact absurd h (by simp)
  · split at h
    · exact absurd h (by simp)
    · split at h <;> (try split at h) <;> simp at h <;> simp [← h]

end Sys2Proof.Machine
end

