-- ==== Sys2Proof/Laws/Memory.lean ====
section
/-! SUPPORT. Byte buffers: a read after a write, what a write leaves alone, and the canonical form, which every write keeps and
which makes equal buffers equal lists. -/

namespace Sys2Proof.Machine

theorem memSorted_mono {lo lo' : Nat} (h : lo' ≤ lo) : ∀ {m : Memory}, memSorted lo m = true → memSorted lo' m = true
  | [], _ => rfl
  | (a, v) :: rest, hm => by
    simp only [memSorted, Bool.and_eq_true, decide_eq_true_eq] at hm ⊢
    exact ⟨⟨h.trans hm.1.1, hm.1.2⟩, hm.2⟩

/-- A sorted buffer lists no index below its start. -/
theorem memRead_below : ∀ {m : Memory} {lo a : Nat}, memSorted lo m = true → a < lo → memRead m a = unlistedByte
  | [], _, _, _, _ => rfl
  | (b, v) :: rest, lo, a, hm, ha => by
    simp only [memSorted, Bool.and_eq_true, decide_eq_true_eq] at hm
    have hne : a ≠ b := by omega
    simpa [memRead, hne] using memRead_below hm.2 (by omega)

theorem memErase_sorted : ∀ {m : Memory} {lo a : Nat}, memSorted lo m = true → memSorted lo (memErase m a) = true
  | [], _, _, _ => rfl
  | (b, v) :: rest, lo, a, hm => by
    simp only [memSorted, Bool.and_eq_true, decide_eq_true_eq] at hm
    by_cases h : a = b
    · simpa [memErase, h] using memSorted_mono (by omega) hm.2
    · simp [memErase, h, memSorted, hm.1.1, hm.1.2, memErase_sorted hm.2]

theorem memInsert_sorted : ∀ {m : Memory} {lo a : Nat} {v : Byte}, lo ≤ a → v ≠ unlistedByte → memSorted lo m = true →
    memSorted lo (memInsert m a v) = true
  | [], _, _, _, ha, hv, _ => by simp [memInsert, memSorted, ha, hv]
  | (b, w) :: rest, lo, a, v, ha, hv, hm => by
    simp only [memSorted, Bool.and_eq_true, decide_eq_true_eq] at hm
    by_cases h1 : a < b
    · have : a + 1 ≤ b := h1
      simp [memInsert, h1, memSorted, ha, hv, hm, this]
    · by_cases h2 : a = b
      · subst h2
        simp [memInsert, memSorted, ha, hv, hm]
      · have hr := memInsert_sorted (a := a) (v := v) (by omega : b + 1 ≤ a) hv hm.2
        simp [memInsert, h1, h2, memSorted, hm, hr]

/-- Every write keeps the canonical form. -/
theorem memWrite_wf {m : Memory} (a : Nat) (v : Byte) (h : m.wf = true) : (memWrite m a v).wf = true := by
  unfold memWrite
  split
  · exact memErase_sorted h
  · exact memInsert_sorted (Nat.zero_le a) ‹_› h

theorem memRead_erase_same : ∀ {m : Memory} {lo a : Nat}, memSorted lo m = true → memRead (memErase m a) a = unlistedByte
  | [], _, _, _ => rfl
  | (b, v) :: rest, lo, a, hm => by
    simp only [memSorted, Bool.and_eq_true, decide_eq_true_eq] at hm
    by_cases h : a = b
    · subst h
      simpa [memErase] using memRead_below hm.2 (Nat.lt_succ_self a)
    · simpa [memErase, h, memRead] using memRead_erase_same hm.2

theorem memRead_insert_same : ∀ (m : Memory) (a : Nat) (v : Byte), memRead (memInsert m a v) a = v
  | [], a, v => by simp [memInsert, memRead]
  | (b, w) :: rest, a, v => by
    by_cases h1 : a < b
    · simp [memInsert, h1, memRead]
    · by_cases h2 : a = b
      · simp [memInsert, h2, memRead]
      · simpa [memInsert, h1, h2, memRead] using memRead_insert_same rest a v

theorem memRead_erase_other {a b : Nat} (h : b ≠ a) : ∀ m : Memory, memRead (memErase m a) b = memRead m b
  | [] => rfl
  | (c, v) :: rest => by
    by_cases h1 : a = c
    · subst h1
      simp [memErase, memRead, h]
    · by_cases h2 : b = c
      · simp [memErase, h1, memRead, h2]
      · simpa [memErase, h1, memRead, h2] using memRead_erase_other h rest

theorem memRead_insert_other {a b : Nat} (v : Byte) (h : b ≠ a) : ∀ m : Memory, memRead (memInsert m a v) b = memRead m b
  | [] => by simp [memInsert, memRead, h]
  | (c, w) :: rest => by
    by_cases h1 : a < c
    · simp [memInsert, h1, memRead, h]
    · by_cases h2 : a = c
      · subst h2
        simp [memInsert, memRead, h]
      · by_cases h3 : b = c
        · simp [memInsert, h1, h2, memRead, h3]
        · simpa [memInsert, h1, h2, memRead, h3] using memRead_insert_other v h rest

/-- A read after a write to the same index gives the byte written. -/
theorem memRead_memWrite_same {m : Memory} (a : Nat) (v : Byte) (h : m.wf = true) : memRead (memWrite m a v) a = v := by
  unfold memWrite
  split
  · rename_i hv
    rw [hv]
    exact memRead_erase_same h
  · exact memRead_insert_same m a v

/-- A write leaves every other index alone. -/
theorem memRead_memWrite_other {a b : Nat} (m : Memory) (v : Byte) (h : b ≠ a) : memRead (memWrite m a v) b = memRead m b := by
  unfold memWrite
  split
  · exact memRead_erase_other h m
  · exact memRead_insert_other v h m

theorem memSorted_ext : ∀ {m m' : Memory} {lo lo' : Nat}, memSorted lo m = true → memSorted lo' m' = true →
    (∀ a, memRead m a = memRead m' a) → m = m'
  | [], [], _, _, _, _, _ => rfl
  | [], (b, w) :: r, _, _, _, h', he => by
    simp only [memSorted, Bool.and_eq_true, decide_eq_true_eq] at h'
    have := he b
    simp only [memRead, if_true] at this
    exact absurd this.symm h'.1.2
  | (a, v) :: r, [], _, _, h, _, he => by
    simp only [memSorted, Bool.and_eq_true, decide_eq_true_eq] at h
    have := he a
    simp only [memRead, if_true] at this
    exact absurd this h.1.2
  | (a, v) :: r, (b, w) :: r', lo, lo', h, h', he => by
    simp only [memSorted, Bool.and_eq_true, decide_eq_true_eq] at h h'
    have hab : a = b := by
      rcases Nat.lt_trichotomy a b with hlt | heq | hgt
      · have hne : a ≠ b := by omega
        have h1 := he a
        simp only [memRead, if_true, hne, if_false] at h1
        rw [memRead_below h'.2 (by omega)] at h1
        exact absurd h1 h.1.2
      · exact heq
      · have hne : b ≠ a := by omega
        have h1 := he b
        simp only [memRead, if_true, hne, if_false] at h1
        rw [memRead_below h.2 (by omega)] at h1
        exact absurd h1.symm h'.1.2
    subst hab
    have hv : v = w := by simpa [memRead] using he a
    have hr : r = r' := memSorted_ext h.2 h'.2 fun c => by
      by_cases hc : c = a
      · subst hc
        rw [memRead_below h.2 (Nat.lt_succ_self c), memRead_below h'.2 (Nat.lt_succ_self c)]
      · simpa [memRead, hc] using he c
    rw [hv, hr]

/-- Buffers in the canonical form that read the same everywhere are the same list. -/
theorem memory_ext {m m' : Memory} (h : m.wf = true) (h' : m'.wf = true) (he : ∀ a, memRead m a = memRead m' a) : m = m' :=
  memSorted_ext h h' he

/-- The buffers of the reset state are in the canonical form. -/
theorem reset_buffers_wf : State.reset.outBuf.wf = true ∧ State.reset.inBuf.wf = true := by decide

end Sys2Proof.Machine
end

