-- ==== Sys2Proof/Laws/Moves.lean ====
section
/-! SUPPORT. Every step from a state that meets the invariant, as a list of moves with what holds at each: a proof about the
whole machine is a case analysis of `Move`, and does not unfold the step. -/

namespace Sys2Proof.Machine

/-- The operation, address and lengths of a transaction instruction. -/
def transactionOf : Instr → Option (Op × BitVec 7 × Nat × Nat)
  | .write a m => some (.write, a, m.toNat, 0)
  | .read a n => some (.read, a, 0, n.toNat)
  | .writeRead a m n => some (.writeRead, a, m.toNat, n.toNat)
  | _ => none

/-- What a transaction in flight guarantees, as propositions. -/
structure InFlight (s : State) (op : Op) : Prop where
  op_eq : s.op = some op
  kind : op = .write ∨ op = .read ∨ op = .writeRead
  configured : s.cfg.isSome = true
  outLen : op.hasOut = true → 1 ≤ s.outLen ∧ s.outLen ≤ 255
  inLen : op.hasIn = true → 1 ≤ s.inLen ∧ s.inLen ≤ 255
  noOut : op.hasOut = false → s.outLen = 0
  noIn : op.hasIn = false → s.inLen = 0
  i_le : s.i ≤ s.outLen
  j_le : s.j ≤ s.inLen

theorem bufferLengthOk_iff (has : Bool) (n : Nat) :
    bufferLengthOk has n = true ↔ (has = true → 1 ≤ n ∧ n ≤ 255) ∧ (has = false → n = 0) := by
  cases has <;> simp [bufferLengthOk, lengthOk, Nat.one_le_iff_ne_zero]

theorem inFlight_of_transactionOk {s : State} (h : transactionOk s = true) : ∃ op, InFlight s op := by
  unfold transactionOk at h
  cases ho : s.op with
  | none => simp [ho] at h
  | some op =>
    simp only [ho, Bool.and_eq_true, decide_eq_true_eq, bufferLengthOk_iff] at h
    obtain ⟨⟨⟨⟨⟨hk, hc⟩, hol⟩, hil⟩, hi⟩, hj⟩ := h
    refine ⟨op, ho, ?_, hc, hol.1, hil.1, hol.2, hil.2, hi, hj⟩
    cases op <;> simp [Op.isTransaction, Op.hasOut, Op.hasIn] at hk ⊢

theorem transactionOk_of_inFlight {s : State} {op : Op} (h : InFlight s op) : transactionOk s = true := by
  have hk : op.isTransaction = true := by rcases h.kind with e | e | e <;> subst e <;> rfl
  have ho := (bufferLengthOk_iff op.hasOut s.outLen).mpr ⟨h.outLen, h.noOut⟩
  have hn := (bufferLengthOk_iff op.hasIn s.inLen).mpr ⟨h.inLen, h.noIn⟩
  simp [transactionOk, h.op_eq, hk, h.configured, ho, hn, h.i_le, h.j_le]

/-- The moves. In each, `s` is the state before and the last index the state after. -/
inductive Move (s : State) : State → Prop where
  | calculate (q : Request) (rest : List Request) (c f : Word) (hp : s.pc = .idle) (hq : s.inbox = q :: rest) :
      Move s (complete (timingCalc c f).toResult { s with inbox := rest, op := some .calculate })
  | initOk (q : Request) (rest : List Request) (c f : Word) (p : TimingParameters) (hp : s.pc = .idle)
      (hq : s.inbox = q :: rest) (ht : timingCalc c f = .ok p) :
      Move s { s with inbox := rest, op := some .init, params := some p, pc := .initT }
  | initFail (q : Request) (rest : List Request) (c f : Word) (hp : s.pc = .idle) (hq : s.inbox = q :: rest)
      (ht : ∀ p, timingCalc c f ≠ .ok p) :
      Move s (complete (timingCalc c f).toResult { s with inbox := rest, op := some .init })
  | classify (q : Request) (rest : List Request) (v : Word) (hp : s.pc = .idle) (hq : s.inbox = q :: rest) :
      Move s (complete (.classified (classify v)) { s with inbox := rest, op := some .classify })
  | unconfigured (q : Request) (rest : List Request) (i : Instr) (op : Op) (a : BitVec 7) (m n : Nat) (hp : s.pc = .idle)
      (hq : s.inbox = q :: rest) (hi : transactionOf i = some (op, a, m, n)) (hc : s.cfg = none) :
      Move s (refuse .notConfigured { accept i q rest s with op := some op })
  | setup (q : Request) (rest : List Request) (i : Instr) (op : Op) (a : BitVec 7) (m n : Nat) (hp : s.pc = .idle)
      (hq : s.inbox = q :: rest) (hi : transactionOf i = some (op, a, m, n)) (hc : s.cfg ≠ none)
      (hl : lengthsOk op m n = true) :
      Move s (setupTransaction a m n { accept i q rest s with op := some op })
  | badLength (q : Request) (rest : List Request) (i : Instr) (op : Op) (a : BitVec 7) (m n : Nat) (hp : s.pc = .idle)
      (hq : s.inbox = q :: rest) (hi : transactionOf i = some (op, a, m, n)) (hc : s.cfg ≠ none)
      (hl : lengthsOk op m n = false) :
      Move s (failLength { accept i q rest s with op := some op })
  | reject (q : Request) (rest : List Request) (r : RefuseReason) (hp : s.pc = .idle) (hq : s.inbox = q :: rest)
      (hd : decode (.cmd q.descriptor) = .error r) :
      Move s (refuse r { s with inbox := rest })
  | finish (hp : s.pc = .done) (ho : s.op.isSome = true) (hr : s.result.isSome = true) : Move s (finish s)
  | timing (p : TimingParameters) (hp : s.pc = .initT) (ho : s.op = some .init) (hq : s.params = some p) :
      Move s { portWrite timingOff (timingWord p) s with pc := .initD }
  | delay (p : TimingParameters) (hp : s.pc = .initD) (ho : s.op = some .init) (hq : s.params = some p) :
      Move s (complete (.okParams p) { portWrite delayOff (delayWord p) s with cfg := some p, params := none })
  | addressStay (op : Op) (hp : s.pc = .addrWait) (hf : InFlight s op) (hi : s.i = 0) (hj : s.j = 0)
      (hv : flagStartPending (draw s) = true) : Move s { portRead statusOff s with pc := .addrWait }
  | addressGo (op : Op) (hp : s.pc = .addrWait) (hf : InFlight s op) (hi : s.i = 0) (hj : s.j = 0)
      (hv : flagStartPending (draw s) = false) : Move s { portRead statusOff s with pc := .addrProg }
  | startWrite (op : Op) (hp : s.pc = .addrProg) (hf : InFlight s op) (ho : op = .write ∨ op = .writeRead) (hi : s.i = 0)
      (hj : s.j = 0) : Move s { portWrite ctrlOff (startWriteWord s.addr s.outLen) s with pc := .txPoll }
  | startRead (hp : s.pc = .addrProg) (hf : InFlight s .read) (hi : s.i = 0) (hj : s.j = 0) :
      Move s { portWrite ctrlOff (startReadWord s.addr s.inLen) s with pc := .rxPoll }
  | pollAbort (op : Op) (e : TransactionError) (hp : s.pc = .txPoll ∨ s.pc = .tcPoll ∨ s.pc = .rxPoll) (hf : InFlight s op)
      (hc : Machine.classify (draw s) = some e) : Move s (takeAbort e (portRead statusOff s))
  | pollStay (op : Op) (p : ControlPoint) (hp : s.pc = p) (hk : p = .txPoll ∨ p = .tcPoll ∨ p = .rxPoll)
      (hf : InFlight s op) (hc : Machine.classify (draw s) = none) (hphase : phaseOk s = true)
      (hv : (p = .txPoll ∧ flagTxe (draw s) = false) ∨ (p = .tcPoll ∧ flagTc (draw s) = false) ∨
        (p = .rxPoll ∧ flagRxne (draw s) = false)) : Move s { portRead statusOff s with pc := p }
  | sendReady (op : Op) (hp : s.pc = .txPoll) (hf : InFlight s op) (ho : op = .write ∨ op = .writeRead)
      (hi : s.i < s.outLen) (hj : s.j = 0) (hc : Machine.classify (draw s) = none) (hv : flagTxe (draw s) = true) :
      Move s { portRead statusOff s with pc := .txData }
  | send (op : Op) (hp : s.pc = .txData) (hf : InFlight s op) (ho : op = .write ∨ op = .writeRead) (hi : s.i < s.outLen)
      (hj : s.j = 0) :
      Move s { portWrite dataOff (dataWord (memRead s.outBuf s.i)) s with
        i := s.i + 1, pc := if s.i + 1 = s.outLen then .tcPoll else .txPoll }
  | sentAll (hp : s.pc = .tcPoll) (hf : InFlight s .write) (hi : s.i = s.outLen) (hj : s.j = 0)
      (hc : Machine.classify (draw s) = none) (hv : flagTc (draw s) = true) :
      Move s { portRead statusOff s with pc := .stopIssue }
  | sentFirst (hp : s.pc = .tcPoll) (hf : InFlight s .writeRead) (hi : s.i = s.outLen) (hj : s.j = 0)
      (hc : Machine.classify (draw s) = none) (hv : flagTc (draw s) = true) :
      Move s { portRead statusOff s with pc := .restartProg }
  | stop (hp : s.pc = .stopIssue) (hf : InFlight s .write) (hi : s.i = s.outLen) :
      Move s (complete .ok (portWrite ctrlOff stopWord s))
  | restart (hp : s.pc = .restartProg) (hf : InFlight s .writeRead) (hi : s.i = s.outLen) (hj : s.j = 0) :
      Move s { portWrite ctrlOff (startReadWord s.addr s.inLen) s with pc := .rxPoll }
  | receiveReady (op : Op) (hp : s.pc = .rxPoll) (hf : InFlight s op) (ho : op = .read ∨ op = .writeRead)
      (hj : s.j < s.inLen) (hi : s.i = s.outLen) (hc : Machine.classify (draw s) = none) (hv : flagRxne (draw s) = true) :
      Move s { portRead statusOff s with pc := .rxData }
  | receiveMore (op : Op) (hp : s.pc = .rxData) (hf : InFlight s op) (ho : op = .read ∨ op = .writeRead) (hj : s.j < s.inLen)
      (hi : s.i = s.outLen) (hl : s.j + 1 ≠ s.inLen) :
      Move s { portRead dataOff s with
        inBuf := memWrite s.inBuf s.j (dataByte (draw s)), j := s.j + 1, pc := .rxPoll }
  | receiveLast (op : Op) (hp : s.pc = .rxData) (hf : InFlight s op) (ho : op = .read ∨ op = .writeRead) (hj : s.j < s.inLen)
      (hi : s.i = s.outLen) (hl : s.j + 1 = s.inLen) :
      Move s (complete .ok { portRead dataOff s with
        inBuf := memWrite s.inBuf s.j (dataByte (draw s)), j := s.j + 1 })
  | clearError (op : Op) (e : TransactionError) (v : Word) (hp : s.pc = .abortClear) (hf : InFlight s op)
      (he : s.err = some e) (hv : (e = .busError ∧ v = clrBerr) ∨ (e = .arbitrationLost ∧ v = clrArlo)) :
      Move s (complete (.err e) (portWrite clearOff v s))
  | clearNack (op : Op) (hp : s.pc = .abortClear) (hf : InFlight s op) (he : s.err = some .notAcknowledge) :
      Move s { portWrite clearOff clrNack s with pc := .flushRead }
  | flushRead (op : Op) (hp : s.pc = .flushRead) (hf : InFlight s op) (he : s.err = some .notAcknowledge) :
      Move s { portRead statusOff s with pc := if flagTxis (draw s) then .flushDummy else .flushTxe }
  | flushDummy (op : Op) (hp : s.pc = .flushDummy) (hf : InFlight s op) (he : s.err = some .notAcknowledge) :
      Move s (complete (.err .notAcknowledge) (portWrite dataOff dummyWord s))
  | flushTxe (op : Op) (hp : s.pc = .flushTxe) (hf : InFlight s op) (he : s.err = some .notAcknowledge) :
      Move s (complete (.err .notAcknowledge) (portWrite statusOff txeFlush s))

/-- The dispatch of a transaction is a move. -/
theorem move_of_start {s : State} {q : Request} {rest : List Request} {i : Instr} {op : Op} {a : BitVec 7} {m n : Nat}
    (hp : s.pc = .idle) (hq : s.inbox = q :: rest) (hi : transactionOf i = some (op, a, m, n)) :
    Move s (startTransaction op a m n (accept i q rest s)) := by
  rcases startTransaction_cases op a m n (accept i q rest s) with ⟨hc, e⟩ | ⟨hc, hl, e⟩ | ⟨hc, hl, e⟩ <;> rw [e]
  · exact .unconfigured q rest i op a m n hp hq hi hc
  · exact .setup q rest i op a m n hp hq hi hc hl
  · exact .badLength q rest i op a m n hp hq hi hc hl

/-- The dispatch of any host operation is a move. -/
theorem move_of_command {s t : State} {q : Request} {rest : List Request} {i : Instr} (hp : s.pc = .idle)
    (hq : s.inbox = q :: rest) (hd : decode (.cmd q.descriptor) = .ok i) (h : exec i (accept i q rest s) = .next t) :
    Move s t := by
  rcases decode_cmd_cases hd with ⟨c, f, rfl⟩ | ⟨c, f, rfl⟩ | ⟨a, n, rfl⟩ | ⟨a, n, rfl⟩ | ⟨a, m, n, rfl⟩ | ⟨v, rfl⟩
  · injection h with h
    subst h
    exact .calculate q rest c f hp hq
  · rcases execInit_cases h with ⟨p, ht, rfl⟩ | ⟨ht, rfl⟩
    · exact .initOk q rest c f p hp hq ht
    · exact .initFail q rest c f hp hq ht
  · injection h with h
    subst h
    exact move_of_start hp hq rfl
  · injection h with h
    subst h
    exact move_of_start hp hq rfl
  · injection h with h
    subst h
    exact move_of_start hp hq rfl
  · injection h with h
    subst h
    exact .classify q rest v hp hq

/-- From a state that meets the invariant every step is a move. -/
theorem move_of_step {s t : State} (hinv : s.Inv) (h : step s = .next t) : Move s t := by
  obtain ⟨hm, h⟩ := step_next_cases h
  have hphase : phaseOk s = true := by simpa [modeOk, hm] using hinv.mode
  have hphase' := hphase
  rcases h with ⟨q, rest, i, hp, hq, hd, h⟩ | ⟨q, rest, r, hp, hq, hd, rfl⟩ | ⟨hp, rfl⟩ | ⟨i, hi, h⟩
  · exact move_of_command hp hq hd h
  · exact .reject q rest r hp hq hd
  · simp only [phaseOk, hp, Bool.and_eq_true] at hphase
    exact .finish hp hphase.1 hphase.2
  · cases hp : s.pc <;> rw [hp] at hi <;> simp only [issuedInstr, reduceCtorEq, Option.some.injEq] at hi <;> subst hi <;>
      simp only [exec] at h <;>
      simp only [phaseOk, hp, Bool.and_eq_true, beq_iff_eq, decide_eq_true_eq] at hphase
    case initT =>
      rcases execTimingWr_cases h with ⟨p, _, hq, rfl⟩ | ⟨hc, rfl⟩
      · exact .timing p hp hphase.1 hq
      · simp only [hp, ne_eq, not_true_eq_false, false_or] at hc
        simp [hc] at hphase
    case initD =>
      rcases execDelayWr_cases h with ⟨p, _, hq, rfl⟩ | ⟨hc, rfl⟩
      · exact .delay p hp hphase.1 hq
      · simp only [hp, ne_eq, not_true_eq_false, false_or] at hc
        simp [hc] at hphase
    case addrWait =>
      obtain ⟨op, hf⟩ := inFlight_of_transactionOk hphase.1.1
      rcases execStatusRd_cases h with ⟨_, hv, rfl⟩ | ⟨_, hv, rfl⟩ | ⟨hc, rfl⟩ | ⟨hc, rfl⟩ | ⟨hc, rfl⟩ | ⟨hc, _, rfl⟩ |
        ⟨hc, _, rfl⟩ | ⟨hc, rfl⟩
      · exact .addressStay op hp hf hphase.1.2 hphase.2 hv
      · exact .addressGo op hp hf hphase.1.2 hphase.2 hv
      all_goals simp [hp, issuedSelector] at hc
    case addrProg =>
      obtain ⟨op, hf⟩ := inFlight_of_transactionOk hphase.1.1
      rcases execCtrlWr_cases h with ⟨_, ho, rfl⟩ | ⟨_, ho, rfl⟩ | ⟨hc, rfl⟩ | ⟨hc, rfl⟩ | ⟨hc, rfl⟩
      · have ho' : op = .write ∨ op = .writeRead := by simpa [hf.op_eq] using ho
        exact .startWrite op hp hf ho' hphase.1.2 hphase.2
      · have ho' : op = .read := by simpa [hf.op_eq] using ho
        subst ho'
        exact .startRead hp hf hphase.1.2 hphase.2
      · simp [hp] at hc
      · simp [hp] at hc
      · rcases hf.kind with e | e | e <;> simp [ctrlOperand, hp, hf.op_eq, e] at hc
    case txPoll =>
      obtain ⟨op, hf⟩ := inFlight_of_transactionOk hphase.1.1.1
      have ho : op = .write ∨ op = .writeRead := by simpa [sending, hf.op_eq] using hphase.1.1.2
      rcases execStatusRd_cases h with ⟨hc, _, rfl⟩ | ⟨hc, _, rfl⟩ | ⟨_, rfl⟩ | ⟨hc, rfl⟩ | ⟨hc, rfl⟩ | ⟨hc, _, rfl⟩ |
        ⟨hc, _, rfl⟩ | ⟨hc, rfl⟩
      case inr.inr.inl =>
        rcases poll_cases (draw s) (flagTxe (draw s)) .txData .txPoll (portRead statusOff s) with
          ⟨e, hc, he⟩ | ⟨hc, hv, he⟩ | ⟨hc, hv, he⟩ <;> rw [he]
        · exact .pollAbort op e (.inl hp) hf hc
        · exact .sendReady op hp hf ho hphase.1.2 hphase.2 hc hv
        · exact .pollStay op _ hp (.inl rfl) hf hc hphase' (.inl ⟨rfl, hv⟩)
      all_goals simp [hp, issuedSelector] at hc
    case txData =>
      obtain ⟨op, hf⟩ := inFlight_of_transactionOk hphase.1.1.1
      have ho : op = .write ∨ op = .writeRead := by simpa [sending, hf.op_eq] using hphase.1.1.2
      rcases execDataWr_cases h with ⟨_, hi, rfl⟩ | ⟨hc, rfl⟩ | ⟨hc, _, rfl⟩
      · exact .send op hp hf ho hi hphase.2
      all_goals simp [hp] at hc
    case tcPoll =>
      obtain ⟨op, hf⟩ := inFlight_of_transactionOk hphase.1.1.1
      have ho : op = .write ∨ op = .writeRead := by simpa [sending, hf.op_eq] using hphase.1.1.2
      rcases execStatusRd_cases h with ⟨hc, _, rfl⟩ | ⟨hc, _, rfl⟩ | ⟨hc, rfl⟩ | ⟨_, rfl⟩ | ⟨hc, rfl⟩ | ⟨hc, _, rfl⟩ |
        ⟨hc, _, rfl⟩ | ⟨hc, rfl⟩
      case inr.inr.inr.inl =>
        rcases poll_cases (draw s) (flagTc (draw s)) (if s.op = some .write then .stopIssue else .restartProg) .tcPoll
          (portRead statusOff s) with ⟨e, hc, he⟩ | ⟨hc, hv, he⟩ | ⟨hc, hv, he⟩ <;> rw [he]
        · exact .pollAbort op e (.inr (.inl hp)) hf hc
        · rcases ho with e | e <;> subst e
          · rw [if_pos hf.op_eq]
            exact .sentAll hp hf hphase.1.2 hphase.2 hc hv
          · rw [if_neg (by simp [hf.op_eq])]
            exact .sentFirst hp hf hphase.1.2 hphase.2 hc hv
        · exact .pollStay op _ hp (.inr (.inl rfl)) hf hc hphase' (.inr (.inl ⟨rfl, hv⟩))
      all_goals simp [hp, issuedSelector] at hc
    case stopIssue =>
      obtain ⟨op, hf⟩ := inFlight_of_transactionOk hphase.1.1
      have ho : op = .write := by simpa [hf.op_eq] using hphase.1.2
      subst ho
      rcases execCtrlWr_cases h with ⟨hc, _, rfl⟩ | ⟨hc, _, rfl⟩ | ⟨_, rfl⟩ | ⟨hc, rfl⟩ | ⟨hc, rfl⟩
      case inr.inr.inl => exact .stop hp hf hphase.2
      all_goals simp [hp, ctrlOperand] at hc
    case restartProg =>
      obtain ⟨op, hf⟩ := inFlight_of_transactionOk hphase.1.1.1
      have ho : op = .writeRead := by simpa [hf.op_eq] using hphase.1.1.2
      subst ho
      rcases execCtrlWr_cases h with ⟨hc, _, rfl⟩ | ⟨hc, _, rfl⟩ | ⟨hc, rfl⟩ | ⟨_, rfl⟩ | ⟨hc, rfl⟩
      case inr.inr.inr.inl => exact .restart hp hf hphase.1.2 hphase.2
      all_goals simp [hp, ctrlOperand] at hc
    case rxPoll =>
      obtain ⟨op, hf⟩ := inFlight_of_transactionOk hphase.1.1.1
      have ho : op = .read ∨ op = .writeRead := by simpa [receiving, hf.op_eq] using hphase.1.1.2
      rcases execStatusRd_cases h with ⟨hc, _, rfl⟩ | ⟨hc, _, rfl⟩ | ⟨hc, rfl⟩ | ⟨hc, rfl⟩ | ⟨_, rfl⟩ | ⟨hc, _, rfl⟩ |
        ⟨hc, _, rfl⟩ | ⟨hc, rfl⟩
      case inr.inr.inr.inr.inl =>
        rcases poll_cases (draw s) (flagRxne (draw s)) .rxData .rxPoll (portRead statusOff s) with
          ⟨e, hc, he⟩ | ⟨hc, hv, he⟩ | ⟨hc, hv, he⟩ <;> rw [he]
        · exact .pollAbort op e (.inr (.inr hp)) hf hc
        · exact .receiveReady op hp hf ho hphase.1.2 hphase.2 hc hv
        · exact .pollStay op _ hp (.inr (.inr rfl)) hf hc hphase' (.inr (.inr ⟨rfl, hv⟩))
      all_goals simp [hp, issuedSelector] at hc
    case rxData =>
      obtain ⟨op, hf⟩ := inFlight_of_transactionOk hphase.1.1.1
      have ho : op = .read ∨ op = .writeRead := by simpa [receiving, hf.op_eq] using hphase.1.1.2
      rcases execDataRd_cases h with ⟨_, hj, u, rfl, ⟨hl, rfl⟩ | ⟨hl, rfl⟩⟩ | ⟨hc, rfl⟩
      · exact .receiveLast op hp hf ho hj hphase.2 hl
      · exact .receiveMore op hp hf ho hj hphase.2 hl
      · simp [hp] at hc
    case abortClear =>
      obtain ⟨op, hf⟩ := inFlight_of_transactionOk hphase.1
      rcases execClearWr_cases h with ⟨e, v, _, he, hv, ⟨hn, rfl⟩ | ⟨hn, rfl⟩⟩ | ⟨hc, rfl⟩
      · subst hn
        simp only [clearOperand, Option.some.injEq] at hv
        subst hv
        exact .clearNack op hp hf he
      · refine .clearError op e v hp hf he ?_
        cases e <;> simp [clearOperand] at hv hn ⊢ <;> exact hv.symm
      · rcases hc with hc | hc | hc
        · simp [hp] at hc
        · simp [hc] at hphase
        · simp [hc] at hphase
    case flushRead =>
      obtain ⟨op, hf⟩ := inFlight_of_transactionOk hphase.1
      rcases execStatusRd_cases h with ⟨hc, _, rfl⟩ | ⟨hc, _, rfl⟩ | ⟨hc, rfl⟩ | ⟨hc, rfl⟩ | ⟨hc, rfl⟩ | ⟨_, hv, rfl⟩ |
        ⟨_, hv, rfl⟩ | ⟨hc, rfl⟩
      case inr.inr.inr.inr.inr.inl => simpa [hv] using Move.flushRead op hp hf hphase.2
      case inr.inr.inr.inr.inr.inr.inl => simpa [hv] using Move.flushRead op hp hf hphase.2
      all_goals simp [hp, issuedSelector] at hc
    case flushDummy =>
      obtain ⟨op, hf⟩ := inFlight_of_transactionOk hphase.1
      rcases execDataWr_cases h with ⟨hc, _, rfl⟩ | ⟨_, rfl⟩ | ⟨_, hc, rfl⟩
      case inr.inl => exact .flushDummy op hp hf hphase.2
      all_goals simp [hp] at hc
    case flushTxe =>
      obtain ⟨op, hf⟩ := inFlight_of_transactionOk hphase.1
      rcases execStatusWr_cases h with ⟨_, rfl⟩ | ⟨hc, rfl⟩
      · exact .flushTxe op hp hf hphase.2
      · simp [hp] at hc

end Sys2Proof.Machine
end

