-- ==== Sys2Proof/Laws/Timing.lean ====
section
/-! SUPPORT. The calculator over the naturals: which formula answers, and that what it answers is legal (R31). -/

namespace Sys2Proof.Machine

theorem ofInt4_toNat (x : Int) (h0 : 0 ≤ x) (h1 : x < 16) : ((BitVec.ofInt 4 x).toNat : Int) = x := by
  simp [BitVec.toNat_ofInt]
  omega

theorem ofInt8_toNat (x : Int) (h0 : 0 ≤ x) (h1 : x < 256) : ((BitVec.ofInt 8 x).toNat : Int) = x := by
  simp [BitVec.toNat_ofInt]
  omega

/-- An Ok has passed every check (R147). -/
theorem checkFields_ok {r : RawTiming} {p : TimingParameters} (h : checkFields r = .ok p) :
    r.prescaler < 16 ∧ r.low ≤ 255 ∧ r.high ≤ 255 ∧ r.setup ≤ 255 ∧ r.hold ≤ 255 ∧ p = r.narrow := by
  unfold checkFields at h
  split at h
  · simp at h
  · split at h
    · simp at h
    · injection h with h
      simp only [not_or, not_lt] at *
      exact ⟨by omega, by omega, by omega, by omega, by omega, h.symm⟩

/-- Every parameter record the calculator gives is legal. -/
theorem timingCalc_legal {clk f : Word} {p : TimingParameters} (h : timingCalc clk f = .ok p) : p.legal = true := by
  have key : ∀ r, postProcess r = .ok p → p.legal = true := by
    intro r h
    obtain ⟨_, _, _, h3, h4, rfl⟩ := checkFields_ok h
    simp only [RawTiming.clamped, Config.setupMin, Config.holdMin] at h3 h4
    have e1 := ofInt8_toNat (max r.setup 2) (by omega) (by omega)
    have e2 := ofInt8_toNat (max r.hold 4) (by omega) (by omega)
    have l1 := le_max_right r.setup 2
    have l2 := le_max_right r.hold 4
    rw [← e1] at l1
    rw [← e2] at l2
    simp only [TimingParameters.legal, RawTiming.narrow, RawTiming.clamped, Bool.and_eq_true, Config.setupMin, Config.holdMin]
    exact ⟨decide_eq_true (by exact_mod_cast l1), decide_eq_true (by exact_mod_cast l2)⟩
  unfold timingCalc timingCalcInt timingByRatio at h
  split at h
  · simp at h
  split at h
  · simp at h
  split at h
  · simp at h
  split at h
  · split at h
    · simp at h
    · exact key _ h
  · exact key _ h

/-- For a frequency and a ratio in range the regime decides, at the natural quotient (R148). -/
theorem timingCalc_eq_byRatio (clk f : Word) (ratio : Nat) (h0 : 1 ≤ f.toNat) (h1 : f.toNat ≤ 1000000)
    (hr : ratio = clk.toNat / f.toNat) (h4 : 4 ≤ ratio) : timingCalc clk f = timingByRatio clk.toNat f.toNat ratio := by
  have a1 : ¬ ((f.toNat : Int) > 1000000) := by omega
  have a2 : ¬ ((f.toNat : Int) = 0) := by omega
  have a3 : ¬ ((clk.toNat : Int) / (f.toNat : Int) < 4) := by
    rw [← Int.natCast_ediv]
    omega
  unfold timingCalc timingCalcInt
  rw [if_neg a1, if_neg a2, if_neg a3, ← Int.natCast_ediv, ← hr]

/-- The clock is below the next multiple of the frequency, and so of any bound of the frequency. -/
theorem clock_lt (clk f ratio bound : Nat) (h0 : 1 ≤ f) (hb : f ≤ bound) (hr : ratio = clk / f) :
    clk < (ratio + 1) * bound := by
  have h : clk < (ratio + 1) * f := by
    rw [hr, Nat.add_mul, Nat.one_mul, Nat.mul_comm]
    have := Nat.div_add_mod clk f
    have := Nat.mod_lt clk (by omega : f > 0)
    omega
  exact lt_of_lt_of_le h (Nat.mul_le_mul_left _ hb)

end Sys2Proof.Machine
end

