-- ==== Sys2Proof/Laws/Words.lean ====
section
/-! SUPPORT. The words the block reads and writes: the fields of a descriptor's first word, the CTRL words as numbers, and that
every word written is legal. -/

namespace Sys2Proof

theorem descriptorWord_toNat (op : BitVec 8) (a : BitVec 7) : (descriptorWord op a).toNat = op.toNat + a.toNat * 256 := by
  have ho := op.isLt
  have ha := a.isLt
  have h : (descriptorWord op a).toNat = (op.toNat ||| (a.toNat * 256)) := by
    simp [descriptorWord, Nat.shiftLeft_eq]
    rw [Nat.mod_eq_of_lt (by omega), Nat.mod_eq_of_lt (by omega)]
  rw [h, show a.toNat * 256 = 2 ^ 8 * a.toNat by omega, Nat.or_comm, ← Nat.two_pow_add_eq_or_of_lt (by omega)]
  omega

theorem opField_toNat (w : Word) : (opField w).toNat = w.toNat % 256 := by simp [opField]

theorem addrField_toNat (w : Word) : (addrField w).toNat = w.toNat / 256 % 128 := by
  simp [addrField, Nat.shiftRight_eq_div_pow]

theorem reservedField_toNat (w : Word) : (reservedField w).toNat = w.toNat / 32768 := by
  have := w.isLt
  simp [reservedField, Nat.shiftRight_eq_div_pow]
  omega

@[simp] theorem opField_descriptorWord (op : BitVec 8) (a : BitVec 7) : opField (descriptorWord op a) = op := by
  apply BitVec.eq_of_toNat_eq
  rw [opField_toNat, descriptorWord_toNat]
  have := op.isLt
  omega

@[simp] theorem addrField_descriptorWord (op : BitVec 8) (a : BitVec 7) : addrField (descriptorWord op a) = a := by
  apply BitVec.eq_of_toNat_eq
  rw [addrField_toNat, descriptorWord_toNat]
  have := op.isLt
  have := a.isLt
  omega

@[simp] theorem reservedField_descriptorWord (op : BitVec 8) (a : BitVec 7) : reservedField (descriptorWord op a) = 0 := by
  apply BitVec.eq_of_toNat_eq
  rw [reservedField_toNat, descriptorWord_toNat]
  have := op.isLt
  have := a.isLt
  simp
  omega

namespace Machine

/-- The two START words as numbers (R198). -/
theorem start_words (addr : BitVec 7) (n : Nat) (hn : n ≤ 255) :
    startWriteWord addr n = BitVec.ofNat 32 (0x00002000 + n * 65536 + addr.toNat * 2) ∧
      startReadWord addr n = BitVec.ofNat 32 (0x02002400 + n * 65536 + addr.toNat * 2) := by
  have ha := addr.isLt
  have low : addr.setWidth 32 <<< 1 = BitVec.ofNat 32 (addr.toNat * 2) := by
    apply BitVec.eq_of_toNat_eq
    simp [Nat.shiftLeft_eq]
  have high : (byteCount n).setWidth 32 <<< 16 = BitVec.ofNat 32 (n * 65536) := by
    apply BitVec.eq_of_toNat_eq
    simp [byteCount, Nat.shiftLeft_eq]
    omega
  have comb : ∀ c d : Nat, c < 2 ^ 16 → d < 2 ^ 8 → 256 ∣ c →
      (BitVec.ofNat 32 (addr.toNat * 2) ||| BitVec.ofNat 32 c ||| BitVec.ofNat 32 (n * 65536) |||
        BitVec.ofNat 32 (d * 2 ^ 24)) = BitVec.ofNat 32 (addr.toNat * 2 + c + n * 65536 + d * 2 ^ 24) := by
    intro c d hc hd ⟨k, hk⟩
    apply BitVec.eq_of_toNat_eq
    simp only [BitVec.toNat_or, BitVec.toNat_ofNat]
    rw [Nat.mod_eq_of_lt (by omega : addr.toNat * 2 < 2 ^ 32), Nat.mod_eq_of_lt (by omega : c < 2 ^ 32),
      Nat.mod_eq_of_lt (by omega : n * 65536 < 2 ^ 32), Nat.mod_eq_of_lt (by omega : d * 2 ^ 24 < 2 ^ 32),
      Nat.mod_eq_of_lt (by omega)]
    have h1 : addr.toNat * 2 ||| c = addr.toNat * 2 + c := by
      rw [hk, show 256 * k = 2 ^ 8 * k by norm_num, Nat.or_comm, ← Nat.two_pow_add_eq_or_of_lt (by omega)]
      omega
    have h2 : addr.toNat * 2 + c ||| n * 65536 = addr.toNat * 2 + c + n * 65536 := by
      rw [show n * 65536 = 2 ^ 16 * n by omega, Nat.or_comm, ← Nat.two_pow_add_eq_or_of_lt (by omega)]
      omega
    rw [h1, h2, Nat.or_comm, Nat.mul_comm d, ← Nat.two_pow_add_eq_or_of_lt (by omega)]
    omega
  constructor
  · have := comb 0x2000 0 (by decide) (by decide) (by decide)
    simp only [startWriteWord, ctrlWord, bitWord, low, high]
    rw [show 0x00002000 + n * 65536 + addr.toNat * 2 = addr.toNat * 2 + 0x2000 + n * 65536 + 0 * 2 ^ 24 by ring, ← this]
    simp
  · have := comb 0x2400 2 (by decide) (by decide) (by decide)
    simp only [startReadWord, ctrlWord, bitWord, low, high]
    rw [show 0x02002400 + n * 65536 + addr.toNat * 2 = addr.toNat * 2 + 0x2400 + n * 65536 + 2 * 2 ^ 24 by ring, ← this]
    simp only [if_true, if_false, Bool.false_eq_true]
    rw [BitVec.or_assoc (BitVec.ofNat 32 (addr.toNat * 2)), BitVec.or_assoc (BitVec.ofNat 32 (addr.toNat * 2))]
    congr 3

/-- Both START words of a length in range are legal CTRL words (R198). -/
theorem start_words_legal (a : BitVec 7) (n : Nat) (h : 1 ≤ n ∧ n ≤ 255) :
    ctrlLegal (startWriteWord a n) = true ∧ ctrlLegal (startReadWord a n) = true := by
  obtain ⟨b, hb⟩ : ∃ b : BitVec 8, b = BitVec.ofNat 8 n := ⟨_, rfl⟩
  have hn : b ≠ 0 := by
    rintro rfl
    have := congrArg BitVec.toNat hb
    simp at this
    omega
  simp only [startWriteWord, startReadWord, byteCount, ← hb]
  have e1 : ctrlWord true a false b false false &&& 0xFF00FF01#32 = 0x00002000#32 := by
    ext i hi
    simp [ctrlWord, bitWord]
    interval_cases i <;> simp
  have e2 : ctrlWord true a true b true false &&& 0xFF00FF01#32 = 0x02002400#32 := by
    ext i hi
    simp [ctrlWord, bitWord]
    interval_cases i <;> simp
  have e3 : ∀ r t, ctrlWord true a r b t false &&& 0x00FF0000#32 = b.setWidth 32 <<< 16 := by
    intro r t
    ext i hi
    simp [ctrlWord, bitWord]
    cases r <;> cases t <;> interval_cases i <;> simp
  have e4 : (b.setWidth 32 <<< 16) ≠ 0#32 := by
    intro h0
    apply hn
    ext i hi
    have := congrArg (fun w => w.getLsbD (i + 16)) h0
    simpa [show i + 16 < 32 by omega, hi] using this
  simp [ctrlLegal, e1, e2, e3, e4]

/-- The TIMING word has its reserved bits 0 (R39). -/
theorem timingWord_legal (p : TimingParameters) : writeLegal timingOff (timingWord p) = true := by
  have h : timingWord p &&& 0x0FFF0000#32 = 0#32 := by
    ext i hi
    simp [timingWord]
    interval_cases i <;> simp
  simp [writeLegal, timingOff, ctrlOff, h]

/-- The DELAY word of a legal parameter record is legal (R31, R40). -/
theorem delayWord_legal (p : TimingParameters) (h : p.legal = true) : writeLegal delayOff (delayWord p) = true := by
  simp [TimingParameters.legal] at h
  have e : delayWord p &&& 0xFFFF0000#32 = 0#32 := by
    ext i hi
    simp [delayWord]
    interval_cases i <;> simp
  have a := p.holdDelay.isLt
  have b := p.setupDelay.isLt
  have e1 : (delayWord p).toNat = p.holdDelay.toNat * 256 + p.setupDelay.toNat := by
    simp only [delayWord, BitVec.toNat_or, BitVec.toNat_shiftLeft, BitVec.toNat_setWidth]
    rw [Nat.mod_eq_of_lt (by omega : p.holdDelay.toNat < 2 ^ 32), Nat.mod_eq_of_lt (by omega : p.setupDelay.toNat < 2 ^ 32),
      Nat.mod_eq_of_lt (by rw [Nat.shiftLeft_eq]; omega), ← Nat.shiftLeft_add_eq_or_of_lt b, Nat.shiftLeft_eq]
  simp [writeLegal, delayOff, ctrlOff, timingOff, e, e1]
  omega

/-- A data byte's word is legal (R44). -/
theorem dataWord_legal (b : Byte) : writeLegal dataOff (dataWord b) = true := by
  have h : dataWord b &&& 0xFFFFFF00#32 = 0#32 := by
    ext i hi
    simp [dataWord]
    interval_cases i <;> simp
  simp [writeLegal, dataOff, ctrlOff, timingOff, delayOff, statusOff, clearOff, h]

end Machine

end Sys2Proof
end

