-- ==== Sys2Proof/Laws/Invariant.lean ====
section
/-! SUPPORT. How a state comes to meet the condition of its control point, one lemma per control point, and what taking a request
and handing over a result keep. -/

namespace Sys2Proof.Machine

/-- A transaction stays in flight while its operation, lengths and configuration stay and its indexes stay in range. -/
theorem InFlight.transfer {s u : State} {op : Op} (hf : InFlight s op) (h1 : u.op = s.op) (h2 : u.cfg = s.cfg)
    (h3 : u.outLen = s.outLen) (h4 : u.inLen = s.inLen) (h5 : u.i ≤ u.outLen) (h6 : u.j ≤ u.inLen) : InFlight u op :=
  ⟨h1 ▸ hf.op_eq, hf.kind, h2 ▸ hf.configured, h3 ▸ hf.outLen, h4 ▸ hf.inLen, h3 ▸ hf.noOut, h4 ▸ hf.noIn, h5, h6⟩

/-- A transaction whose lengths pass R182 is in flight after its setup. -/
theorem inFlight_of_setup {s : State} {i : Instr} {op : Op} {a : BitVec 7} {m n : Nat}
    (hi : transactionOf i = some (op, a, m, n)) (hc : s.cfg ≠ none) (hl : lengthsOk op m n = true) :
    InFlight (setupTransaction a m n { s with op := some op }) op := by
  have hz := hi
  have hk : op = .write ∨ op = .read ∨ op = .writeRead := by
    cases i <;> simp [transactionOf] at hi <;> simp [← hi.1]
  refine ⟨rfl, hk, ?_, ?_, ?_, ?_, ?_, by simp, by simp⟩
  · simpa [Option.isSome_iff_ne_none] using hc
  · intro ho
    simp only [lengthsOk, ho] at hl
    simp [lengthOk] at hl
    simp
    omega
  · intro ho
    simp only [lengthsOk, ho] at hl
    simp [lengthOk] at hl
    simp
    omega
  · intro ho
    rcases hk with e | e | e <;> subst e <;> simp [Op.hasOut] at ho
    cases i <;> simp [transactionOf] at hz
    simp [hz]
  · intro ho
    rcases hk with e | e | e <;> subst e <;> simp [Op.hasIn] at ho
    cases i <;> simp [transactionOf] at hz
    simp [hz]

section
variable {t : State} {op : Op} (hm : t.mode = .running) (hf : InFlight t op)
include hm hf

theorem modeOk_address (hp : t.pc = .addrWait ∨ t.pc = .addrProg) (hi : t.i = 0) (hj : t.j = 0) : modeOk t = true := by
  rcases hp with hp | hp <;> simp [modeOk, hm, phaseOk, hp, transactionOk_of_inFlight hf, hi, hj]

theorem modeOk_send (hp : t.pc = .txPoll ∨ t.pc = .txData) (ho : op = .write ∨ op = .writeRead) (hi : t.i < t.outLen)
    (hj : t.j = 0) : modeOk t = true := by
  rcases hp with hp | hp <;>
    simp [modeOk, hm, phaseOk, hp, transactionOk_of_inFlight hf, hi, hj, sending, hf.op_eq, ho]

theorem modeOk_sent (hp : t.pc = .tcPoll) (ho : op = .write ∨ op = .writeRead) (hi : t.i = t.outLen) (hj : t.j = 0) :
    modeOk t = true := by
  simp [modeOk, hm, phaseOk, hp, transactionOk_of_inFlight hf, hi, hj, sending, hf.op_eq, ho]

theorem modeOk_stop (hp : t.pc = .stopIssue) (ho : op = .write) (hi : t.i = t.outLen) : modeOk t = true := by
  simp [modeOk, hm, phaseOk, hp, transactionOk_of_inFlight hf, hi, hf.op_eq, ho]

theorem modeOk_restart (hp : t.pc = .restartProg) (ho : op = .writeRead) (hi : t.i = t.outLen) (hj : t.j = 0) :
    modeOk t = true := by
  simp [modeOk, hm, phaseOk, hp, transactionOk_of_inFlight hf, hi, hj, hf.op_eq, ho]

theorem modeOk_receive (hp : t.pc = .rxPoll ∨ t.pc = .rxData) (ho : op = .read ∨ op = .writeRead) (hj : t.j < t.inLen)
    (hi : t.i = t.outLen) : modeOk t = true := by
  rcases hp with hp | hp <;>
    simp [modeOk, hm, phaseOk, hp, transactionOk_of_inFlight hf, hi, hj, receiving, hf.op_eq, ho]

theorem modeOk_abort (hp : t.pc = .abortClear)
    (he : t.err = some .busError ∨ t.err = some .arbitrationLost ∨ t.err = some .notAcknowledge) : modeOk t = true := by
  rcases he with he | he | he <;> simp [modeOk, hm, phaseOk, hp, transactionOk_of_inFlight hf, he]

theorem modeOk_flush (hp : t.pc = .flushRead ∨ t.pc = .flushDummy ∨ t.pc = .flushTxe)
    (he : t.err = some .notAcknowledge) : modeOk t = true := by
  rcases hp with hp | hp | hp <;> simp [modeOk, hm, phaseOk, hp, transactionOk_of_inFlight hf, he]

end

theorem modeOk_done {t : State} (hm : t.mode = .running) (hp : t.pc = .done) (ho : t.op.isSome = true)
    (hr : t.result.isSome = true) : modeOk t = true := by
  simp [modeOk, hm, phaseOk, hp, ho, hr]

/-- Taking a request keeps the buffers in the canonical form. -/
theorem accept_buffersOk {i : Instr} {q : Request} {rest : List Request} {s : State} (hq : s.inbox = q :: rest)
    (h : buffersOk s = true) : buffersOk (accept i q rest s) = true := by
  simp only [buffersOk, hq, List.all_cons, Bool.and_eq_true] at h
  simp only [buffersOk, accept, Bool.and_eq_true]
  refine ⟨⟨⟨?_, ?_⟩, h.1.2.2⟩, h.2⟩ <;> split <;> simp [h]

/-- Handing over a result keeps the buffers in the canonical form. -/
theorem finish_buffersOk {s : State} (h : buffersOk s = true) : buffersOk (finish s) = true := by
  simp only [buffersOk, Bool.and_eq_true] at h
  simp only [buffersOk, finish, replies, returnedBuffer, Bool.and_eq_true, List.all_append]
  refine ⟨h.1, h.2, ?_⟩
  rcases s.result with _ | r
  · rfl
  · rcases s.op with _ | op
    · rfl
    · cases e : op.hasIn <;> simp [e, h]

end Sys2Proof.Machine
end

