-- ==== Sys2Proof/Laws/PerInstr.lean ====
section
/-! SUPPORT. Statements made for every instruction, one lemma per constructor. -/

namespace Sys2Proof.Laws.TableWord

/-- The word an instruction is encoded to belongs to its own row of the opcode table (R104, R110). -/
def Statement (i : Instr) : Prop := (opcodeTable[i.rowIndex]?).any (·.covers (encode i)) = true

/-- The three rows with an address operand: the OP alone is under the mask (R101). -/
theorem op_under_mask (k : Nat) (op : BitVec 8) (a : BitVec 7) (hk : k = op.toNat) :
    (descriptorWord op a).toNat &&& 0xFFFF80FF = k := by
  subst hk
  have h : descriptorWord op a &&& 0xFFFF80FF#32 = op.setWidth 32 := by
    ext i hi
    simp [descriptorWord]
    interval_cases i <;> simp
  have := congrArg BitVec.toNat h
  rw [BitVec.toNat_and, BitVec.toNat_setWidth, Nat.mod_eq_of_lt (Nat.lt_of_lt_of_le op.isLt (by decide))] at this
  exact this

theorem calculate (clk f : Word) : Statement (.calculate clk f) := by
  simp [Statement, opcodeTable, Instr.rowIndex, TableRow.covers, Encoded.tableWord, encode]
  decide
theorem init (clk f : Word) : Statement (.init clk f) := by
  simp [Statement, opcodeTable, Instr.rowIndex, TableRow.covers, Encoded.tableWord, encode]
  decide
theorem write (addr : BitVec 7) (outLen : Word) : Statement (.write addr outLen) := by
  simp [Statement, opcodeTable, Instr.rowIndex, TableRow.covers, Encoded.tableWord, encode, op_under_mask 0x10]
theorem read (addr : BitVec 7) (inLen : Word) : Statement (.read addr inLen) := by
  simp [Statement, opcodeTable, Instr.rowIndex, TableRow.covers, Encoded.tableWord, encode, op_under_mask 0x11]
theorem writeRead (addr : BitVec 7) (outLen inLen : Word) : Statement (.writeRead addr outLen inLen) := by
  simp [Statement, opcodeTable, Instr.rowIndex, TableRow.covers, Encoded.tableWord, encode, op_under_mask 0x12]
theorem classify (snapshot : Word) : Statement (.classify snapshot) := by
  simp [Statement, opcodeTable, Instr.rowIndex, TableRow.covers, Encoded.tableWord, encode]
  decide
theorem statusRd : Statement .statusRd := rfl
theorem dataRd : Statement .dataRd := rfl
theorem ctrlWr : Statement .ctrlWr := rfl
theorem timingWr : Statement .timingWr := rfl
theorem statusWr : Statement .statusWr := rfl
theorem clearWr : Statement .clearWr := rfl
theorem dataWr : Statement .dataWr := rfl
theorem delayWr : Statement .delayWr := rfl

end Sys2Proof.Laws.TableWord
end

