-- ==== Sys2Proof/Laws/Runs.lean ====
section
/-! SUPPORT. Runs of the machine put together from steps. -/

namespace Sys2Proof.Machine

theorem runsTo_zero (s : State) : runsTo 0 s s := rfl

/-- A step before a run. -/
theorem runsTo_succ {s t u : State} {k : Nat} (h : step s = .next t) (h' : runsTo k t u) : runsTo (k + 1) s u := by
  unfold runsTo at *
  simp only [Host.Core.run, Sys2Proof.core, h]
  exact h'

/-- One run after another. -/
theorem runsTo_add {s t u : State} {a b : Nat} (h : runsTo a s t) (h' : runsTo b t u) : runsTo (a + b) s u := by
  induction a generalizing s with
  | zero =>
    injection h with h
    subst h
    simpa using h'
  | succ a ih =>
    unfold runsTo at h
    simp only [Host.Core.run, Sys2Proof.core] at h
    cases hs : step s with
    | next v =>
      rw [hs] at h
      rw [Nat.succ_add]
      exact runsTo_succ hs (ih h)
    | fault f =>
      rw [hs] at h
      cases h
    | refused r =>
      rw [hs] at h
      cases h

end Sys2Proof.Machine
end

