-- ==== Sys2Proof/Laws/Progress.lean ====
section
/-! SUPPORT. Polls and the answers that end them (R81): what one poll does, and when a run meets `EnvProgress`. -/

namespace Sys2Proof.Machine

@[simp] theorem comingAnswer_zero (s : State) : comingAnswer s 0 = draw s := by
  unfold comingAnswer draw
  cases s.env <;> rfl

/-- A read uses up one answer. -/
@[simp] theorem comingAnswer_portRead (off : Offset) (s : State) (n : Nat) :
    comingAnswer (portRead off s) n = comingAnswer s (n + 1) := by
  simp only [comingAnswer, portRead_env, portRead_draws, List.getElem?_tail, Nat.add_assoc, Nat.add_comm 1]

/-- One poll: an answer that does not end the polling is read and nothing else happens; one that does takes control away. -/
theorem step_poll {s : State} (hm : s.mode = .running) (hp : isPoll s.pc = true) :
    (pollEnds s.pc (draw s) = false ∧ step s = .next (portRead statusOff s)) ∨
      (pollEnds s.pc (draw s) = true ∧ ∃ t, step s = .next t ∧ t.pc ≠ s.pc) := by
  have stay : ∀ (u : State) (q : ControlPoint), u.pc = q → { u with pc := q } = u := by
    rintro u _ rfl
    rfl
  cases hpc : s.pc <;> rw [hpc] at hp <;> simp only [isPoll, Bool.false_eq_true] at hp <;>
    rw [step_access (i := .statusRd) hm (by rw [hpc]; rfl)] <;> simp only [exec, execStatusRd, hpc, pollEnds]
  case addrWait =>
    cases hv : flagStartPending (draw s)
    · exact .inr ⟨rfl, _, rfl, by simp⟩
    · exact .inl ⟨rfl, congrArg _ (stay (portRead statusOff s) _ hpc)⟩
  case tcPoll =>
    rcases poll_cases (draw s) (flagTc (draw s)) (if s.op = some .write then .stopIssue else .restartProg) .tcPoll
      (portRead statusOff s) with ⟨e, hc, h⟩ | ⟨hc, hv, h⟩ | ⟨hc, hv, h⟩
    · exact .inr ⟨by simp [hc], _, rfl, by simp [h]⟩
    · exact .inr ⟨by simp [hv], _, rfl, by rw [h]; dsimp only; split <;> simp⟩
    · exact .inl ⟨by simp [hc, hv], by rw [h, stay (portRead statusOff s) _ hpc]⟩
  case txPoll =>
    rcases poll_cases (draw s) (flagTxe (draw s)) .txData .txPoll (portRead statusOff s) with
      ⟨e, hc, h⟩ | ⟨hc, hv, h⟩ | ⟨hc, hv, h⟩
    · exact .inr ⟨by simp [hc], _, rfl, by simp [h]⟩
    · exact .inr ⟨by simp [hv], _, rfl, by simp [h]⟩
    · exact .inl ⟨by simp [hc, hv], by rw [h, stay (portRead statusOff s) _ hpc]⟩
  case rxPoll =>
    rcases poll_cases (draw s) (flagRxne (draw s)) .rxData .rxPoll (portRead statusOff s) with
      ⟨e, hc, h⟩ | ⟨hc, hv, h⟩ | ⟨hc, hv, h⟩
    · exact .inr ⟨by simp [hc], _, rfl, by simp [h]⟩
    · exact .inr ⟨by simp [hv], _, rfl, by simp [h]⟩
    · exact .inl ⟨by simp [hc, hv], by rw [h, stay (portRead statusOff s) _ hpc]⟩

/-- A run of `k + 1` steps begins with a step. -/
theorem runsTo_succ_cases {k : Nat} {s u : State} (h : runsTo (k + 1) s u) : ∃ t, step s = .next t ∧ runsTo k t u := by
  unfold runsTo at *
  simp only [Host.Core.run, Sys2Proof.core] at h
  cases hs : step s with
  | next t => exact ⟨t, rfl, by rw [hs] at h; exact h⟩
  | fault f => rw [hs] at h; cases h
  | refused r => rw [hs] at h; cases h

/-- The premise is kept along the run. -/
theorem EnvProgress.after_step {s t : State} (h : EnvProgress s) (hs : step s = .next t) : EnvProgress t :=
  fun k u hu => h (k + 1) u (runsTo_succ hs hu)

/-- Does every poll of the run from `s` end at its first answer, and the run stop within `k` steps? -/
def pollsAnswered : Nat → State → Bool
  | 0, _ => false
  | k + 1, s =>
    (!isPoll s.pc || pollEnds s.pc (draw s)) &&
      match step s with
      | .next t => pollsAnswered k t
      | .fault _ => true
      | .refused _ => true

/-- A run whose every poll ends at once meets the premise. -/
theorem envProgress_of_pollsAnswered {k : Nat} {s : State} (h : pollsAnswered k s = true) : EnvProgress s := by
  induction k generalizing s with
  | zero => simp [pollsAnswered] at h
  | succ k ih =>
    simp only [pollsAnswered, Bool.and_eq_true] at h
    intro j u hj _ hp
    cases j with
    | zero =>
      injection hj with hj
      subst hj
      exact ⟨0, by simpa [hp] using h.1⟩
    | succ j =>
      obtain ⟨t, hs, ht⟩ := runsTo_succ_cases hj
      exact ih (by simpa [hs] using h.2) j u ht ‹_› hp

end Sys2Proof.Machine
end

