-- ==== Sys2Proof/Tests/Slice0.lean ====
section
/-! SUPPORT. Tests of the model, with expected values from spec/95_test_vectors.md and from the rules cited, and for each statement
that has hypotheses a state and operands that meet them. -/

namespace Sys2Proof.Tests

open Sys2Proof Sys2Proof.Machine

/-! ### Helpers -/

/-- The parameters of vector E1. -/
def cfg0 : TimingParameters := ⟨0, 200, 99, 15, 59⟩

/-- Configured, idle, address 0x50. -/
def base : State := { State.reset with cfg := some cfg0, addr := 0x50 }

/-- A WRITE of 0x11, 0x22, 0x33 in flight, `i` bytes sent. -/
def sendAt (pc : ControlPoint) (i : Nat) (answers : List Word) : State :=
  { base with pc := pc, op := some .write, outLen := 3, i := i, outBuf := [(0, 0x11), (1, 0x22), (2, 0x33)], env := answers }

/-- A READ of two bytes in flight, `j` bytes stored. -/
def recvAt (pc : ControlPoint) (j : Nat) (answers : List Word) : State :=
  { base with pc := pc, op := some .read, inLen := 2, j := j, inBuf := [(0, 0xEE), (1, 0xEE)], env := answers }

/-- A WRITE at the abort path with this kind. -/
def abortAt (pc : ControlPoint) (e : TransactionError) : State := { sendAt pc 1 [0] with err := some e }

/-- An INIT at its register writes. -/
def initAt (pc : ControlPoint) : State := { State.reset with pc := pc, op := some .init, params := some cfg0 }

/-- Configured or not, with this descriptor to come. -/
def asked (cfg : Option TimingParameters) (d : Descriptor) : State :=
  { State.reset with cfg := cfg, inbox := [⟨d, [(0, 0xF7)], [(0, 0xEE)]⟩] }

/-- Does an outcome give a next state that passes this check? -/
def nextIs (o : Host.Outcome State Fault Refusal) (check : State → Bool) : Bool :=
  match o with
  | .next t => check t
  | .fault _ => false
  | .refused _ => false

/-- The instruction a fetch runs. -/
def instrOf : Fetched → Option Instr
  | .run i _ => some i
  | .halted _ => none
  | .nothing => none
  | .finish => none
  | .reject _ _ => none

/-! ### Well-formedness: one ill-formed request for each check (R105, R74, R110; V-D) -/

theorem test_illformed_op :
    (Descriptor.mk 0x00000003 0 0).wellFormed = false ∧ decode (.cmd ⟨0x00000003, 0, 0⟩) = .error .unknownOperation := by decide

theorem test_illformed_reserved :
    (Descriptor.mk 0x00008010 1 0).wellFormed = false ∧
      decode (.cmd ⟨0x00008010, 1, 0⟩) = .error .reservedFieldNonzero := by decide

theorem test_illformed_address :
    (Descriptor.mk 0x00005001 120000000 400000).wellFormed = false ∧
      decode (.cmd ⟨0x00005001, 120000000, 400000⟩) = .error .reservedFieldNonzero := by decide

theorem test_illformed_operands :
    (Descriptor.mk 0x00005010 1 7).wellFormed = false ∧ (Descriptor.mk 0x00005011 3 2).wellFormed = false ∧
      (Descriptor.mk 0x00000020 0x311 1).wellFormed = false ∧
      decode (.cmd ⟨0x00005010, 1, 7⟩) = .error .reservedFieldNonzero ∧
      decode (.cmd ⟨0x00005011, 3, 2⟩) = .error .reservedFieldNonzero ∧
      decode (.cmd ⟨0x00000020, 0x311, 1⟩) = .error .reservedFieldNonzero := by decide

theorem test_illformed_port :
    (PortRequest.mk 0x018 1).wellFormed = false ∧ (PortRequest.mk 0x004 4).wellFormed = false ∧
      decode (.port ⟨0x018, 1⟩) = .error .unknownPortAccess ∧ decode (.port ⟨0x004, 4⟩) = .error .unknownPortAccess := by
  decide

/-! ### Decoding: every instruction from a word written out from R101, R102, R104 and R110 -/

theorem test_decode_commands :
    decode (.cmd ⟨0x00000001, 0x07270E00, 0x00061A80⟩) = .ok (.calculate 120000000 400000) ∧
    decode (.cmd ⟨0x00000002, 0x007A1200, 0x000186A0⟩) = .ok (.init 8000000 100000) ∧
    decode (.cmd ⟨0x00003C10, 0x00000002, 0⟩) = .ok (.write 0x3C 2) ∧
    decode (.cmd ⟨0x00005011, 0, 0x00000001⟩) = .ok (.read 0x50 1) ∧
    decode (.cmd ⟨0x00007612, 0x00000001, 0x00000003⟩) = .ok (.writeRead 0x76 1 3) ∧
    decode (.cmd ⟨0x00000020, 0x00000311, 0⟩) = .ok (.classify 0x311) := by decide

theorem test_decode_accesses :
    decode (.port ⟨0b000011000, 4⟩) = .ok .statusRd ∧ decode (.port ⟨0b000100100, 4⟩) = .ok .dataRd ∧
    decode (.port ⟨0b100000100, 4⟩) = .ok .ctrlWr ∧ decode (.port ⟨0b100010000, 4⟩) = .ok .timingWr ∧
    decode (.port ⟨0b100011000, 4⟩) = .ok .statusWr ∧ decode (.port ⟨0b100011100, 4⟩) = .ok .clearWr ∧
    decode (.port ⟨0b100100100, 4⟩) = .ok .dataWr ∧ decode (.port ⟨0b100101100, 4⟩) = .ok .delayWr := by decide

/-- The remaining lines of V-D. -/
theorem test_decode_vectors :
    decode (.cmd ⟨0, 0, 0⟩) = .error .unknownOperation ∧ decode (.cmd ⟨0x000000FF, 0, 0⟩) = .error .unknownOperation ∧
    decode (.cmd ⟨0x00007F12, 1, 1⟩) = .ok (.writeRead 0x7F 1 1) ∧ decode (.cmd ⟨0x00000010, 1, 0⟩) = .ok (.write 0 1) ∧
    decode (.cmd ⟨0xFFFFFF10, 1, 0⟩) = .error .reservedFieldNonzero := by decide

/-- No word belongs to two rows of the opcode table. -/
theorem test_rows_disjoint :
    opcodeTable.Pairwise (fun r r' => r.isPort ≠ r'.isPort ∨ (r.pattern ^^^ r'.pattern) &&& (r.mask &&& r'.mask) ≠ 0) := by
  decide

theorem test_table_words :
    decodeTableWord 32 0x00000001 = some (.calculate 0 0) ∧ decodeTableWord 32 0x00005011 = some (.read 0x50 0) ∧
    decodeTableWord 16 0x012C = some .delayWr ∧ decodeTableWord 16 0x0218 = none ∧ decodeTableWord 32 0x00000018 = none := by
  decide

theorem test_fetch_commands :
    [0x00000001, 0x00000002, 0x00005010, 0x00005011, 0x00005012, 0x00000020].map
      (fun w => instrOf (fetch (State.reset.withFetchWord 32 w))) =
    [some (.calculate 0 0), some (.init 0 0), some (.write 0x50 0), some (.read 0x50 0), some (.writeRead 0x50 0 0),
      some (.classify 0)] := by decide

theorem test_fetch_accesses :
    [0x018, 0x024, 0x104, 0x110, 0x118, 0x11C, 0x124, 0x12C].map
      (fun w => (issuedSelector (State.reset.withFetchWord 16 w).pc).map BitVec.toNat) =
    [some 0x018, some 0x024, some 0x104, some 0x110, some 0x118, some 0x11C, some 0x124, some 0x12C] := by decide

/-! ### One step of each instruction -/

/-- V-A: the document's vector, and the last Fast Ok. -/
theorem test_calc_vectors :
    nextIs (exec (.calculate 120000000 400000) State.reset)
      (fun t => t.result.map Result.words == some (0, 0x000063C8, 0x00003B0F) && t.pc == .done) = true ∧
    nextIs (exec (.calculate 614400000 100001) State.reset)
      (fun t => t.result.map Result.words == some (0, 0xF0007EFE, 0x00001204)) = true := by decide

/-- V-A: the ratios on both sides of each limit. -/
theorem test_calc_limits :
    (timingCalc 822300000 100000).toResult.words = (0, 0xF000FFFF, 0x00003F19) ∧
    (timingCalc 822400000 100000).toResult.words = (0x01, 0, 0) ∧ (timingCalc 614500000 100001).toResult.words = (0x21, 0, 0) ∧
    (timingCalc 614506145 100001).toResult.words = (0x20, 0, 0) ∧ (timingCalc 300000 100000).toResult.words = (0x02, 0, 0) := by
  decide

/-- V-B: an INIT that fails keeps `cfg`; one that succeeds has not set it yet. -/
theorem test_init :
    nextIs (exec (.init 300000 100000) base)
      (fun t => t.cfg == some cfg0 && t.result == some (.configErr .ratioOutOfRange) && t.hist == []) = true ∧
    nextIs (exec (.init 8000000 100000) base)
      (fun t => t.cfg == some cfg0 && t.params == some ⟨0, 39, 39, 4, 9⟩ && t.pc == .initT) = true := by decide

/-- V-E. -/
theorem test_write :
    nextIs (exec (.write 0x50 256) base) (fun t => t.result == some (.err .lengthError) && t.pc == .done) = true ∧
    nextIs (exec (.write 0x50 0) State.reset) (fun t => t.mode == .refused .notConfigured && t.hist == []) = true := by decide

/-- V-E, and R183. -/
theorem test_read :
    nextIs (exec (.read 0x50 4294967295) base) (fun t => t.result == some (.err .lengthError)) = true ∧
    nextIs (exec (.read 0x51 255) base) (fun t => t.pc == .addrWait && t.inLen == 255 && t.addr == 0x51) = true := by decide

/-- V-E, and R183. -/
theorem test_writeRead :
    nextIs (exec (.writeRead 0x50 1 256) base) (fun t => t.result == some (.err .lengthError)) = true ∧
    nextIs (exec (.writeRead 0x76 1 3) base)
      (fun t => t.pc == .addrWait && t.outLen == 1 && t.inLen == 3 && t.op == some .writeRead) = true := by decide

/-- V-C. -/
theorem test_classify :
    nextIs (exec (.classify 0xFFFFFCEF) State.reset) (fun t => t.result == some (.classified none)) = true ∧
    nextIs (exec (.classify 0x210) State.reset) (fun t => t.result.map Result.words == some (0x11, 0, 0)) = true := by decide

/-- T4 (every abort flag beside TXE) and T11 (OVR is ignored). -/
theorem test_statusRd :
    nextIs (exec .statusRd (sendAt .txPoll 0 [0x311]))
      (fun t => t.pc == .abortClear && t.err == some .busError && t.hist == [.rd 0x18 0x311]) = true ∧
    nextIs (exec .statusRd (recvAt .rxPoll 0 [0x404])) (fun t => t.pc == .rxData && t.err == none) = true := by decide

/-- T8: only bits 7:0 are stored. -/
theorem test_dataRd :
    nextIs (exec .dataRd (recvAt .rxData 0 [0x1A5]))
      (fun t => t.inBuf == [(0, 0xA5), (1, 0xEE)] && t.j == 1 && t.pc == .rxPoll) = true ∧
    nextIs (exec .dataRd (recvAt .rxData 1 [0x3C])) (fun t => t.pc == .done && t.result == some .ok) = true := by decide

/-- T1 and T12. -/
theorem test_ctrlWr :
    nextIs (exec .ctrlWr (sendAt .addrProg 0 [])) (fun t => t.hist == [.wr 0x04 0x000320A0] && t.pc == .txPoll) = true ∧
    nextIs (exec .ctrlWr { base with pc := .restartProg, op := some .writeRead, addr := 0x76, inLen := 3 })
      (fun t => t.hist == [.wr 0x04 0x020324EC] && t.pc == .rxPoll) = true := by decide

/-- R152's example. -/
theorem test_timingWr :
    nextIs (exec .timingWr (initAt .initT)) (fun t => t.hist == [.wr 0x10 0x000063C8] && t.cfg == none) = true := by decide

/-- R152's example. -/
theorem test_delayWr :
    nextIs (exec .delayWr (initAt .initD))
      (fun t => t.hist == [.wr 0x2C 0x00003B0F] && t.cfg == some cfg0 && t.params == none) = true := by decide

/-- T7's last event. -/
theorem test_statusWr :
    nextIs (exec .statusWr (abortAt .flushTxe .notAcknowledge))
      (fun t => t.hist == [.wr 0x18 0x1] && t.result == some (.err .notAcknowledge)) = true := by decide

/-- T3 and T5. -/
theorem test_clearWr :
    nextIs (exec .clearWr (abortAt .abortClear .notAcknowledge)) (fun t => t.hist == [.wr 0x1C 0x30] && t.pc == .flushRead) = true ∧
    nextIs (exec .clearWr (abortAt .abortClear .arbitrationLost))
      (fun t => t.hist == [.wr 0x1C 0x200] && t.pc == .done) = true := by decide

/-- T1's last byte, and T3's dummy byte. -/
theorem test_dataWr :
    nextIs (exec .dataWr (sendAt .txData 2 [])) (fun t => t.hist == [.wr 0x24 0x33] && t.i == 3 && t.pc == .tcPoll) = true ∧
    nextIs (exec .dataWr (abortAt .flushDummy .notAcknowledge)) (fun t => t.hist == [.wr 0x24 0] && t.i == 1) = true := by decide

/-- R197: the return hands over the result and the buffer. -/
theorem test_done :
    nextIs (step { recvAt .done 2 [] with result := some .ok })
      (fun t => t.delivered == [⟨.ok, some [(0, 0xEE), (1, 0xEE)]⟩] && t.op == none && t.pc == .idle) = true := by decide

/-- R38: what was last written to a register is read off the history; nothing was written to CLEAR. -/
theorem test_lastWrite :
    lastWrite ctrlOff [.wr 0x04 1, .rd 0x18 7, .wr 0x04 2, .wr 0x24 3] = some 2 ∧ lastWrite clearOff [.wr 0x04 1] = none := by
  decide

/-- R75: little-endian lanes. -/
theorem test_byteLane : byteLane 0x44332211 0 = 0x11 ∧ byteLane 0x44332211 3 = 0x44 := by decide

/-! ### The hypotheses of each statement can be met -/

theorem witness_EncodeOfDecode : decode (.cmd ⟨0x00007F12, 1, 1⟩) = .ok (.writeRead 0x7F 1 1) := by decide

theorem witness_DescriptorChecksInOrder :
    (Descriptor.mk 0x00008003 0 0).opListed = false ∧
    ((Descriptor.mk 0x00008010 1 0).opListed = true ∧ (Descriptor.mk 0x00008010 1 0).reservedZero = false) ∧
    ((Descriptor.mk 0x00007F01 1 0).opListed = true ∧ (Descriptor.mk 0x00007F01 1 0).reservedZero = true ∧
      (Descriptor.mk 0x00007F01 1 0).addressAllowed = false) ∧
    ((Descriptor.mk 0x00007F10 1 1).opListed = true ∧ (Descriptor.mk 0x00007F10 1 1).reservedZero = true ∧
      (Descriptor.mk 0x00007F10 1 1).addressAllowed = true ∧ (Descriptor.mk 0x00007F10 1 1).operandsAllowed = false) ∧
    (Descriptor.mk 0x00007F12 1 1).wellFormed = true := by decide

theorem witness_PortAccessDecodesOrIsUnknown :
    (PortRequest.mk 0x12C 4).wellFormed = true ∧ (PortRequest.mk 0x12C 2).wellFormed = false := by decide

theorem witness_ControlWordFields : 0x000320A0#32 = ctrlWord true 0x50 false 3 false false := by decide

theorem witness_StepRunsTheHostOperation :
    (asked none ⟨0x00005010, 3, 0⟩).mode = .running ∧ (asked none ⟨0x00005010, 3, 0⟩).pc = .idle ∧
    (asked none ⟨0x00005010, 3, 0⟩).inbox = ⟨⟨0x00005010, 3, 0⟩, [(0, 0xF7)], [(0, 0xEE)]⟩ :: [] ∧
    decode (.cmd ⟨0x00005010, 3, 0⟩) = .ok (.write 0x50 3) := by decide

theorem witness_StepRunsTheIssuedAccess :
    (recvAt .rxData 0 [0]).mode = .running ∧ issuedSelector (recvAt .rxData 0 [0]).pc = some 0x024 := by decide

theorem witness_MalformedDescriptorRefused :
    (asked none ⟨0x00008010, 1, 0⟩).mode = .running ∧ (asked none ⟨0x00008010, 1, 0⟩).pc = .idle ∧
    (asked none ⟨0x00008010, 1, 0⟩).inbox = ⟨⟨0x00008010, 1, 0⟩, [(0, 0xF7)], [(0, 0xEE)]⟩ :: [] ∧
    decode (.cmd ⟨0x00008010, 1, 0⟩) = .error .reservedFieldNonzero := by decide

theorem witness_DoneHandsOverOneResult :
    (recvAt .done 2 []).mode = .running ∧ (recvAt .done 2 []).pc = .done ∧ (recvAt .done 2 []).op = some .read ∧
    { recvAt .done 2 [] with result := some .ok }.result = some .ok := by decide

theorem witness_NoStepWhenRefusedOrUnasked :
    { State.reset with mode := .refused .notConfigured }.mode = .refused .notConfigured ∧
    (State.reset.mode = .running ∧ State.reset.pc = .idle ∧ State.reset.inbox = []) := by decide

theorem witness_InvariantHoldsAtReset :
    (asked none ⟨0x00005010, 1, 0⟩).inbox.all (fun q => q.outBuf.wf && q.inBuf.wf) = true := by decide

/-- A receiving state, the last byte to come, with events behind it. -/
def receiving0 : State := { recvAt .rxData 1 [0x3C] with hist := [.rd 0x18 0, .wr 0x04 0x020224A0, .rd 0x18 0xFFFFFCEF] }

theorem witness_Inv_receiving : receiving0.Inv := ⟨by decide, by decide, by decide, by decide⟩

theorem witness_Inv_sending : (sendAt .txData 2 []).Inv := ⟨by decide, by decide, by decide, by decide⟩

theorem witness_Inv_idle : (asked none ⟨1, 1, 1⟩).Inv := ⟨by decide, by decide, by decide, by decide⟩

theorem witness_Inv_done : { sendAt .done 3 [] with result := some .ok }.Inv := ⟨by decide, by decide, by decide, by decide⟩

theorem witness_EveryStepKeepsTheInvariant : receiving0.Inv ∧ ∃ t, step receiving0 = .next t :=
  ⟨witness_Inv_receiving, _, rfl⟩

theorem witness_NoFaultAndNoStuckEngine :
    (receiving0.Inv ∧ receiving0.mode = .running ∧ receiving0.pc ≠ .idle) ∧
    ((asked none ⟨1, 1, 1⟩).Inv ∧ (asked none ⟨1, 1, 1⟩).mode = .running ∧ (asked none ⟨1, 1, 1⟩).inbox ≠ []) :=
  ⟨⟨witness_Inv_receiving, by decide, by decide⟩, witness_Inv_idle, by decide, by decide⟩

theorem witness_OnlyListedTransitions : (sendAt .txData 2 []).Inv ∧ ∃ t, step (sendAt .txData 2 []) = .next t :=
  ⟨witness_Inv_sending, _, rfl⟩

theorem witness_OneEventOfTheIssuedSelector :
    (receiving0.Inv ∧ issuedSelector receiving0.pc = some 0x024 ∧ ∃ t, step receiving0 = .next t) ∧
    ({ sendAt .done 3 [] with result := some .ok }.Inv ∧
      issuedSelector { sendAt .done 3 [] with result := some .ok }.pc = none ∧
      ∃ t, step { sendAt .done 3 [] with result := some .ok } = .next t) :=
  ⟨⟨witness_Inv_receiving, by decide, _, rfl⟩, witness_Inv_done, by decide, _, rfl⟩

theorem witness_OnlyInitSetsConfiguration :
    nextIs (step (initAt .initD)) (fun t => t.cfg == (initAt .initD).params && t.cfg != (initAt .initD).cfg) = true ∧
    nextIs (step receiving0) (fun t => t.cfg == receiving0.cfg) = true := by decide

theorem witness_BuffersOnlyTouchedInPlace :
    nextIs (step receiving0) (fun t => t.inBuf != receiving0.inBuf) = true ∧ receiving0.pc ≠ .idle ∧
    nextIs (step (sendAt .txData 2 [])) (fun _ => true) = true ∧ (sendAt .txData 2 []).pc ≠ .rxData := by decide

theorem witness_IndexesCountBytesMoved :
    (receiving0.Inv ∧ receiving0.pc = .rxData ∧ ∃ t, step receiving0 = .next t) ∧
    ((sendAt .txData 2 []).Inv ∧ (sendAt .txData 2 []).pc = .txData ∧ ∃ t, step (sendAt .txData 2 []) = .next t) :=
  ⟨⟨witness_Inv_receiving, by decide, _, rfl⟩, witness_Inv_sending, by decide, _, rfl⟩

theorem witness_PortAccessesRecordOneEvent : receiving0.env = 0x3C :: [] := by decide

theorem witness_FrequencyAndRatioGuards :
    1000000 < (1000001#32).toNat ∧ (0#32).toNat = 0 ∧
    (0 < (1000000#32).toNat ∧ (1000000#32).toNat ≤ 1000000 ∧ (3999999#32).toNat / (1000000#32).toNat < 4) := by decide

theorem witness_StandardRegimeOutcome :
    1 ≤ (100000#32).toNat ∧ (100000#32).toNat ≤ 100000 ∧ 8224 = (822400000#32).toNat / (100000#32).toNat ∧
    4 = (400000#32).toNat / (100000#32).toNat ∧ 8223 = (822300000#32).toNat / (100000#32).toNat := by decide

theorem witness_FastRegimeOutcome :
    100000 < (100001#32).toNat ∧ (1000000#32).toNat ≤ 1000000 ∧ 6145 = (614506145#32).toNat / (100001#32).toNat ∧
    6144 = (614500000#32).toNat / (100001#32).toNat ∧ 384 = (153600000#32).toNat / (400000#32).toNat ∧
    6143 = (614400000#32).toNat / (100001#32).toNat ∧ 4 = (4000000#32).toNat / (1000000#32).toNat := by decide

theorem witness_CalculatorBounds :
    timingCalc 4294967295 1000000 = .ok ⟨11, 238, 118, 2, 88⟩ ∧ timingCalc 153600000 400000 = .defect .fieldOverflow := by
  decide

theorem witness_InitDispatch :
    timingCalc 120000000 400000 = .ok cfg0 ∧ ∀ p, timingCalc 120000000 1000001 ≠ .ok p :=
  ⟨by decide, by
    intro p h
    have : timingCalc 120000000 1000001 = .configErr .frequencyTooHigh := by decide
    rw [this] at h
    cases h⟩

theorem witness_InitWritesTimingThenDelay :
    (initAt .initT).params = some cfg0 ∧ (initAt .initT).pc = .initT ∧ (initAt .initD).params = some cfg0 ∧
    (initAt .initD).pc = .initD := by decide

theorem witness_InitRunsToIdle :
    (asked none ⟨2, 120000000, 400000⟩).mode = .running ∧ (asked none ⟨2, 120000000, 400000⟩).pc = .idle ∧
    (asked none ⟨2, 120000000, 400000⟩).params = none ∧
    (asked none ⟨2, 120000000, 400000⟩).inbox = ⟨⟨2, 120000000, 400000⟩, [(0, 0xF7)], [(0, 0xEE)]⟩ :: [] ∧
    timingCalc 120000000 400000 = .ok cfg0 := by decide

theorem witness_ClassifierPriority :
    (0x00000311#32).getLsbD 8 = true ∧ ((0x00000210#32).getLsbD 8 = false ∧ (0x00000210#32).getLsbD 9 = true) ∧
    ((0x00000031#32).getLsbD 8 = false ∧ (0x00000031#32).getLsbD 9 = false ∧ (0x00000031#32).getLsbD 4 = true) ∧
    ((0xFFFFFCEF#32).getLsbD 8 = false ∧ (0xFFFFFCEF#32).getLsbD 9 = false ∧ (0xFFFFFCEF#32).getLsbD 4 = false) ∧
    0xFFFFFCEF#32 &&& 0x310#32 = 0#32 := by decide

theorem witness_ClearWordsNameTheImplicatedFlags :
    clearOperand .busError = some 0x100 ∧ clearOperand .arbitrationLost = some 0x200 ∧
    clearOperand .notAcknowledge = some 0x30 := by decide

theorem witness_UnconfiguredTransactionRefused : State.reset.cfg = none := by decide

theorem witness_BadLengthGivesLengthError :
    base.cfg ≠ none ∧ (0#32).toNat = 0 ∧ 255 < (256#32).toNat ∧ 255 < (0xFFFFFFFF#32).toNat := by decide

theorem witness_LengthErrorCountsNoByte :
    base.cfg ≠ none ∧ ∃ t, exec (.write 0x50 0) base = .next t ∧ t.result = some (.err .lengthError) ∧ t.pc = .done :=
  ⟨by decide, _, rfl, by decide, by decide⟩

theorem witness_TransactionSetup :
    base.cfg ≠ none ∧ (1 ≤ (1#32).toNat ∧ (1#32).toNat ≤ 255) ∧ (1 ≤ (255#32).toNat ∧ (255#32).toNat ≤ 255) ∧
    decode (.cmd ⟨0x00007F10, 1, 0⟩) = .ok (.write 0x7F 1) ∧ decode (.cmd ⟨0x00007F11, 0, 255⟩) = .ok (.read 0x7F 255) ∧
    decode (.cmd ⟨0x00007F12, 1, 255⟩) = .ok (.writeRead 0x7F 1 255) := by decide

/-- An idle configured state and another that an earlier operation left otherwise, for `witness_CallsAreIndependent`. -/
def leftover (d : Descriptor) : State :=
  { asked (some cfg0) d with
    op := some .read, addr := 1, outLen := 2, inLen := 3, i := 4, j := 5, err := some .busError, outBuf := [(7, 1)], inBuf := []
    result := some (.err .busError) }

theorem witness_CallsAreIndependent :
    ∀ d ∈ [Descriptor.mk 0x00007F10 255 0, Descriptor.mk 0x00007F11 0 1, Descriptor.mk 0x00007F12 255 1],
      (asked (some cfg0) d).mode = .running ∧ (asked (some cfg0) d).pc = .idle ∧
      (asked (some cfg0) d).inbox = ⟨d, [(0, 0xF7)], [(0, 0xEE)]⟩ :: [] ∧ (asked (some cfg0) d).cfg ≠ none ∧
      1 ≤ (255#32).toNat ∧ (255#32).toNat ≤ 255 ∧ 1 ≤ (1#32).toNat ∧ (1#32).toNat ≤ 255 ∧
      leftover d =
        { asked (some cfg0) d with
          op := (leftover d).op, addr := (leftover d).addr, outLen := (leftover d).outLen, inLen := (leftover d).inLen
          i := (leftover d).i, j := (leftover d).j, err := (leftover d).err, outBuf := (leftover d).outBuf
          inBuf := (leftover d).inBuf, result := (leftover d).result } ∧
      (decode (.cmd d) = .ok (.write 0x7F 255) ∨ decode (.cmd d) = .ok (.read 0x7F 1) ∨
        decode (.cmd d) = .ok (.writeRead 0x7F 255 1)) := by
  intro d hd
  simp only [List.mem_cons, List.not_mem_nil, or_false] at hd
  rcases hd with rfl | rfl | rfl <;> decide

theorem witness_AddressWait : (sendAt .addrWait 0 [0x4000]).pc = .addrWait := by decide

theorem witness_AddressProgram :
    (sendAt .addrProg 0 []).pc = .addrProg ∧ (sendAt .addrProg 0 []).op = some .write ∧ (sendAt .addrProg 0 []).outLen ≤ 255 ∧
    (recvAt .addrProg 0 []).pc = .addrProg ∧ (recvAt .addrProg 0 []).op = some .read ∧
    { recvAt .addrProg 0 [] with inLen := 255 }.inLen ≤ 255 := by decide

theorem witness_DataAndCompletionPolls :
    ((sendAt .tcPoll 3 [0x311]).pc = .tcPoll ∧ classify (draw (sendAt .tcPoll 3 [0x311])) = some .busError) ∧
    ((sendAt .txPoll 0 [1]).pc = .txPoll ∧ classify (draw (sendAt .txPoll 0 [1])) = none) ∧
    ((sendAt .tcPoll 3 [0x40]).pc = .tcPoll ∧ classify (draw (sendAt .tcPoll 3 [0x40])) = none) ∧
    ((recvAt .rxPoll 0 [0x404]).pc = .rxPoll ∧ classify (draw (recvAt .rxPoll 0 [0x404])) = none) := by decide

theorem witness_SendOneByte :
    ((sendAt .txData 2 []).pc = .txData ∧ (sendAt .txData 2 []).i < (sendAt .txData 2 []).outLen) ∧
    nextIs (step (sendAt .txPoll 0 [1])) (fun t => t.pc == .txData) = true := by decide

theorem witness_StopAndRestart :
    (sendAt .stopIssue 3 []).pc = .stopIssue ∧ (recvAt .restartProg 0 []).pc = .restartProg ∧
    (recvAt .restartProg 0 []).inLen ≤ 255 := by decide

theorem witness_StoreOneByte :
    (recvAt .rxData 0 [0x1A5]).pc = .rxData ∧ (recvAt .rxData 0 [0x1A5]).j < (recvAt .rxData 0 [0x1A5]).inLen ∧
    (recvAt .rxData 0 [0x1A5]).inBuf.wf = true ∧ receiving0.j + 1 = receiving0.inLen := by decide

theorem witness_IndexOutsideTheBufferFaults :
    ((sendAt .txData 3 []).pc = .txData ∧ (sendAt .txData 3 []).outLen ≤ (sendAt .txData 3 []).i) ∧
    ((recvAt .rxData 2 []).pc = .rxData ∧ (recvAt .rxData 2 []).inLen ≤ (recvAt .rxData 2 []).j) := by decide

theorem witness_AbortClear :
    (abortAt .abortClear .busError).pc = .abortClear ∧ (abortAt .abortClear .busError).err = some .busError ∧
    (abortAt .abortClear .arbitrationLost).err = some .arbitrationLost ∧
    (abortAt .abortClear .notAcknowledge).err = some .notAcknowledge := by decide

theorem witness_NackFlush :
    (abortAt .flushRead .notAcknowledge).pc = .flushRead ∧ (abortAt .flushDummy .notAcknowledge).pc = .flushDummy ∧
    (abortAt .flushTxe .notAcknowledge).pc = .flushTxe := by decide

theorem witness_AccessWithoutAnOperandRefused :
    (encode .clearWr = .port ⟨0x11C, 4⟩ ∧ issuedSelector State.reset.pc ≠ some 0x11C) ∧
    ({ base with pc := .addrProg }.op ≠ some .write ∧ { base with pc := .addrProg }.op ≠ some .read ∧
      { base with pc := .addrProg }.op ≠ some .writeRead) ∧
    { base with pc := .initT }.params = none ∧ { base with pc := .initD }.params = none ∧
    { base with pc := .abortClear }.err = none ∧ (abortAt .abortClear .lengthError).err = some .lengthError := by decide

theorem witness_AbortRunsToIdle :
    (abortAt .abortClear .busError).mode = .running ∧ (abortAt .abortClear .busError).pc = .abortClear ∧
    (abortAt .abortClear .busError).op = some .write ∧ (abortAt .abortClear .busError).err = some .busError ∧
    (abortAt .abortClear .notAcknowledge).err = some .notAcknowledge := by decide

theorem witness_HangsAreKept :
    (sendAt .txPoll 0 [0, 0x40, 1]).mode = .running ∧ (sendAt .txPoll 0 [0, 0x40, 1]).env = [0, 0x40] ++ [1] ∧
    (sendAt .txPoll 0 [0, 0x40, 1]).pc = .txPoll ∧
    (∀ v ∈ [0#32, 0x40#32], classify v = none ∧ v.getLsbD 0 = false) ∧
    ((0x4000#32).getLsbD 14 = true ∧ (classify 1 = none ∧ (1#32).getLsbD 6 = false ∧ (1#32).getLsbD 2 = false)) := by
  refine ⟨by decide, by decide, by decide, ?_, by decide⟩
  intro v hv
  rcases List.mem_pair.mp hv with rfl | rfl <;> decide

/-- The longest WRITE (E5): 255 bytes, every poll answered at once. -/
def longWrite : State :=
  { base with
    inbox := [⟨⟨0x10#32 ||| ((0x7F#7).setWidth 32 <<< 8), BitVec.ofNat 32 255, 0⟩, [], []⟩]
    env := 0 :: ((List.range 255).map (fun _ => 1#32) ++ 0x40 :: []) }

theorem witness_WriteRunsToOk :
    longWrite.mode = .running ∧ longWrite.pc = .idle ∧ longWrite.cfg ≠ none ∧
    longWrite.inbox = ⟨⟨0x10#32 ||| ((0x7F#7).setWidth 32 <<< 8), BitVec.ofNat 32 255, 0⟩, [], []⟩ :: [] ∧
    longWrite.env = 0 :: ((List.range 255).map (fun _ => 1#32) ++ 0x40 :: []) ∧ (0#32).getLsbD 14 = false ∧
    (∀ k, k < 255 → classify ((fun _ : Nat => 1#32) k) = none ∧ ((fun _ : Nat => 1#32) k).getLsbD 0 = true) ∧
    classify 0x40 = none ∧ (0x40#32).getLsbD 6 = true :=
  ⟨rfl, rfl, by decide, rfl, rfl, by decide, fun _ _ => show classify 1 = none ∧ (1#32).getLsbD 0 = true by decide, by decide, by decide⟩

/-- A READ of `n` bytes from IDLE, every poll answered at once. -/
def askedRead (n : Nat) : State :=
  { base with
    inbox := [⟨⟨0x11#32 ||| ((0x50#7).setWidth 32 <<< 8), 0, BitVec.ofNat 32 n⟩, [], [(0, 0xEE), (1, 0xEE)]⟩]
    env := 0 :: (((List.range n).flatMap fun k => [(fun _ : Nat => 4#32) k, BitVec.ofNat 32 k]) ++ []) }

theorem witness_ReadRunsToOk :
    ∀ n ∈ [1, 255],
      (askedRead n).mode = .running ∧ (askedRead n).pc = .idle ∧ (askedRead n).cfg ≠ none ∧ 1 ≤ n ∧ n ≤ 255 ∧
      Memory.wf [(0, 0xEE), (1, 0xEE)] = true ∧
      (askedRead n).inbox =
        ⟨⟨0x11#32 ||| ((0x50#7).setWidth 32 <<< 8), 0, BitVec.ofNat 32 n⟩, [], [(0, 0xEE), (1, 0xEE)]⟩ :: [] ∧
      (askedRead n).env =
        0 :: (((List.range n).flatMap fun k => [(fun _ : Nat => 4#32) k, BitVec.ofNat 32 k]) ++ []) ∧
      (0#32).getLsbD 14 = false ∧
      (∀ k, k < n → classify ((fun _ : Nat => 4#32) k) = none ∧ ((fun _ : Nat => 4#32) k).getLsbD 2 = true) := by
  intro n hn
  have hb : 1 ≤ n ∧ n ≤ 255 := by
    rcases List.mem_pair.mp hn with rfl | rfl <;> decide
  exact ⟨rfl, rfl, by simp [askedRead, base], hb.1, hb.2, by decide, rfl, rfl, by decide,
    fun _ _ => show classify 4 = none ∧ (4#32).getLsbD 2 = true by decide⟩

/-- A WRITE_READ of `m` and `n` bytes from IDLE, every poll answered at once. -/
def askedWriteRead (m n : Nat) : State :=
  { base with
    inbox := [⟨⟨0x12#32 ||| ((0x76#7).setWidth 32 <<< 8), BitVec.ofNat 32 m, BitVec.ofNat 32 n⟩, [(0, 0xF7)], [(0, 0xEE)]⟩]
    env := 0 :: ((List.range m).map (fun _ => 1#32) ++
      0x40 :: (((List.range n).flatMap fun k => [(fun _ : Nat => 4#32) k, BitVec.ofNat 32 k]) ++ [])) }

theorem witness_WriteReadRunsToOk :
    ∀ mn ∈ [(1, 255), (255, 1)],
      (askedWriteRead mn.1 mn.2).mode = .running ∧ (askedWriteRead mn.1 mn.2).pc = .idle ∧
      (askedWriteRead mn.1 mn.2).cfg ≠ none ∧ (1 ≤ mn.1 ∧ mn.1 ≤ 255 ∧ 1 ≤ mn.2 ∧ mn.2 ≤ 255) ∧
      Memory.wf [(0, 0xEE)] = true ∧
      (askedWriteRead mn.1 mn.2).inbox =
        ⟨⟨0x12#32 ||| ((0x76#7).setWidth 32 <<< 8), BitVec.ofNat 32 mn.1, BitVec.ofNat 32 mn.2⟩, [(0, 0xF7)],
          [(0, 0xEE)]⟩ :: [] ∧
      (askedWriteRead mn.1 mn.2).env = 0 :: ((List.range mn.1).map (fun _ => 1#32) ++
        0x40 :: (((List.range mn.2).flatMap fun k => [(fun _ : Nat => 4#32) k, BitVec.ofNat 32 k]) ++ [])) ∧
      (0#32).getLsbD 14 = false ∧
      (∀ k, k < mn.1 → classify ((fun _ : Nat => 1#32) k) = none ∧ ((fun _ : Nat => 1#32) k).getLsbD 0 = true) ∧
      classify 0x40 = none ∧ (0x40#32).getLsbD 6 = true ∧
      (∀ k, k < mn.2 → classify ((fun _ : Nat => 4#32) k) = none ∧ ((fun _ : Nat => 4#32) k).getLsbD 2 = true) := by
  rintro ⟨m, n⟩ hn
  have hb : 1 ≤ m ∧ m ≤ 255 ∧ 1 ≤ n ∧ n ≤ 255 := by
    rcases List.mem_pair.mp hn with h | h <;> injection h with h1 h2 <;> subst h1 <;> subst h2 <;> decide
  exact ⟨rfl, rfl, by simp [askedWriteRead, base], hb, by decide, rfl, rfl, by decide,
    fun _ _ => show classify 1 = none ∧ (1#32).getLsbD 0 = true by decide, by decide, by decide,
    fun _ _ => show classify 4 = none ∧ (4#32).getLsbD 2 = true by decide⟩

/-- A sending state with 769 answers to come that let every poll go on (TXE, RXNE and TC), behind one that does not. -/
def answered : State := { sendAt .txPoll 0 [] with env := 0 :: List.replicate 769 0x45 }

theorem witness_OperationReturnsUnderProgress :
    answered.Inv ∧ answered.mode = .running ∧ 769 ≤ answered.env.countP releasing := by
  refine ⟨⟨by decide, by decide, by decide, by decide⟩, by decide, ?_⟩
  have h : releasing 0x45 = true := by decide
  show 769 ≤ (0 :: List.replicate 769 0x45).countP releasing
  rw [List.countP_cons, List.countP_replicate, if_pos h]
  exact Nat.le_add_right _ _

/-- A WRITE of one byte at ADDR_WAIT, answered 0, 1, 0x40: no answer but the one each poll needs. -/
def answeredWrite : State := { sendAt .addrWait 0 [0, 1, 0x40] with outLen := 1 }

theorem witness_OperationReturnsUnderEnvProgress :
    answeredWrite.Inv ∧ answeredWrite.mode = .running ∧ EnvProgress answeredWrite ∧
    answeredWrite.env.countP releasing = 0 :=
  ⟨⟨by decide, by decide, by decide, by decide⟩, by decide, envProgress_of_pollsAnswered (k := 8) (by decide), by decide⟩

theorem witness_EnvProgressMeansFinitePolls :
    runsTo 0 answeredWrite answeredWrite ∧ answeredWrite.mode = .running ∧ isPoll answeredWrite.pc = true :=
  ⟨rfl, by decide, by decide⟩

theorem witness_ResultWords :
    (Result.okParams cfg0).words = (Result.okParams ⟨0, 200, 99, 15, 59⟩).words := by decide

end Sys2Proof.Tests
end

section
/-! The scope of a step (00_scope): the one port access it makes, and the one event it records. -/

namespace Sys2Proof.Machine

/-! ### One port access -/

/-- A listed answer is the next one drawn (R80). -/
theorem draw_of_env_cons {s : State} {v : Word} {rest : List Word} (h : s.env = v :: rest) : draw s = v := by
  simp [draw, h]

/-- A read whose answer is listed records it and uses it up (R79, R80). -/
theorem portRead_of_env_cons {s : State} {v : Word} {rest : List Word} (off : Offset) (h : s.env = v :: rest) :
    portRead off s = { s with hist := s.hist ++ [.rd off v], env := rest, draws := s.draws + 1 } := by
  simp [portRead, draw_of_env_cons h, h]

/-- The selector a control point issues decodes to the instruction it issues (R110). -/
theorem decode_issuedSelector {p : ControlPoint} {sel : Selector} (h : issuedSelector p = some sel) :
    ∃ i, issuedInstr p = some i ∧ decode (portWord sel) = .ok i := by
  cases p <;> simp only [issuedSelector, reduceCtorEq, Option.some.injEq] at h <;> subst h <;> exact ⟨_, rfl, rfl⟩

/-! ### The event of a step -/

/-- From `s` to `t` the history grows by the event, if any, of the selector that the control point of `s` issues. -/
def RecordsIssued (s t : State) : Prop :=
  ∃ new : Option PortEvent, new.map PortEvent.selector = issuedSelector s.pc ∧ t.hist = s.hist ++ new.toList

variable {s t : State} {p : ControlPoint} {e : PortEvent}

/-- A step that makes no access, at a control point that issues none. -/
theorem recordsIssued_silent (hp : s.pc = p) (hs : issuedSelector p = none) (ht : t.hist = s.hist) : RecordsIssued s t :=
  ⟨none, by simp [hp, hs], by simp [ht]⟩

/-- A step that makes one access, at a control point that issues that access. -/
theorem recordsIssued_event (hp : s.pc = p) (ht : t.hist = s.hist ++ [e]) (hs : issuedSelector p = some e.selector) :
    RecordsIssued s t :=
  ⟨some e, by simp [hp, hs], ht⟩

/-- Every move records the event its control point issues (R14, R79, R110): the dispatches at IDLE and the return at DONE none,
every other move one. -/
theorem Move.recordsIssued (h : Move s t) : RecordsIssued s t := by
  cases h
  case calculate | initOk | initFail | classify | unconfigured | setup | badLength | reject | finish =>
    exact recordsIssued_silent ‹s.pc = _› rfl rfl
  case pollAbort op e hp hf hc =>
    rcases hp with hp | hp | hp <;> exact recordsIssued_event hp rfl rfl
  case pollStay op p hp hk hf hc hphase hv =>
    rcases hk with rfl | rfl | rfl <;> exact recordsIssued_event hp rfl rfl
  case timing | delay | addressStay | addressGo | startWrite | startRead | sendReady | send | sentAll | sentFirst | stop |
      restart | receiveReady | receiveMore | receiveLast | clearError | clearNack | flushRead | flushDummy | flushTxe =>
    exact recordsIssued_event ‹s.pc = _› rfl rfl

end Sys2Proof.Machine

namespace Sys2Proof.Proofs

open Sys2Proof Sys2Proof.Machine

/-- Settles O18: from the invariant every step is a move, and every move records what its control point issues. -/
theorem oneEventOfTheIssuedSelector : Obligations.OneEventOfTheIssuedSelector := by
  intro s t hinv hstep
  obtain ⟨new, hsel, hhist⟩ := (move_of_step hinv hstep).recordsIssued
  cases new with
  | none => exact ⟨fun _ => by simpa using hhist, fun sel h => by simp [h] at hsel⟩
  | some e => exact ⟨fun h => by simp [h] at hsel, fun sel h => ⟨e, by simpa [h] using hsel, hhist⟩⟩

/-- Settles O9: the issued selector decodes to the issued instruction, which is what the step runs. -/
theorem stepRunsTheIssuedAccess : Obligations.StepRunsTheIssuedAccess := by
  intro s sel hm hs
  obtain ⟨i, hi, hd⟩ := decode_issuedSelector hs
  exact ⟨i, hd, step_access hm hi⟩

/-- Settles O22: the rules of a read with a listed answer, and the definition of a write. -/
theorem portAccessesRecordOneEvent : Obligations.PortAccessesRecordOneEvent :=
  fun _ _ _ off => ⟨fun h => ⟨draw_of_env_cons h, portRead_of_env_cons off h⟩, rfl⟩

end Sys2Proof.Proofs
end

section
/-! The state (10_state): the invariant that every step keeps, and what the steps do to the configuration and the indexes. -/

namespace Sys2Proof.Machine

/-! ### The configuration and the indexes -/

@[simp] theorem poll_cfg (v : Word) (awaited : Bool) (ready stay : ControlPoint) (t : State) :
    (poll v awaited ready stay t).cfg = t.cfg := by
  rcases poll_cases v awaited ready stay t with ⟨e, _, h⟩ | ⟨_, _, h⟩ | ⟨_, _, h⟩ <;> simp [h]

@[simp] theorem startTransaction_cfg (op : Op) (a : BitVec 7) (m n : Nat) (s : State) : (startTransaction op a m n s).cfg = s.cfg := by
  rcases startTransaction_cases op a m n s with ⟨_, h⟩ | ⟨_, _, h⟩ | ⟨_, _, h⟩ <;> simp [h]

/-- Only DELAY_WR at INIT_D sets the configuration, to the parameters held (R35, R152). -/
theorem exec_cfg {i : Instr} {s t : State} (h : exec i s = .next t) :
    t.cfg = s.cfg ∨ (s.pc = .initD ∧ s.params ≠ none ∧ t.cfg = s.params) := by
  cases i <;> simp only [exec] at h
  case delayWr =>
    rcases execDelayWr_cases h with ⟨p, hp, hq, rfl⟩ | ⟨_, rfl⟩
    · exact .inr ⟨hp, by simp [hq], by simp [hq]⟩
    · exact .inl rfl
  all_goals left
  case calculate | classify =>
    injection h with h
    rw [← h, complete_cfg]
  case write | read | writeRead =>
    injection h with h
    rw [← h, startTransaction_cfg]
  case init => rcases execInit_cases h with ⟨p, _, rfl⟩ | ⟨_, rfl⟩ <;> rfl
  case statusRd =>
    rcases execStatusRd_cases h with ⟨_, _, rfl⟩ | ⟨_, _, rfl⟩ | ⟨_, rfl⟩ | ⟨_, rfl⟩ | ⟨_, rfl⟩ | ⟨_, _, rfl⟩ |
      ⟨_, _, rfl⟩ | ⟨_, rfl⟩ <;> simp
  case dataRd => rcases execDataRd_cases h with ⟨_, _, u, rfl, ⟨_, rfl⟩ | ⟨_, rfl⟩⟩ | ⟨_, rfl⟩ <;> rfl
  case ctrlWr => rcases execCtrlWr_cases h with ⟨_, _, rfl⟩ | ⟨_, _, rfl⟩ | ⟨_, rfl⟩ | ⟨_, rfl⟩ | ⟨_, rfl⟩ <;> rfl
  case timingWr => rcases execTimingWr_cases h with ⟨p, _, _, rfl⟩ | ⟨_, rfl⟩ <;> rfl
  case statusWr => rcases execStatusWr_cases h with ⟨_, rfl⟩ | ⟨_, rfl⟩ <;> rfl
  case clearWr => rcases execClearWr_cases h with ⟨e, v, _, _, _, ⟨_, rfl⟩ | ⟨_, rfl⟩⟩ | ⟨_, rfl⟩ <;> rfl
  case dataWr => rcases execDataWr_cases h with ⟨_, _, rfl⟩ | ⟨_, rfl⟩ | ⟨_, _, rfl⟩ <;> rfl

/-- A step keeps the configuration, or is INIT's second write and sets it to INIT's parameters (R35). -/
theorem step_cfg {s t : State} (h : step s = .next t) :
    t.cfg = s.cfg ∨ (s.pc = .initD ∧ s.params ≠ none ∧ t.cfg = s.params) := by
  obtain ⟨-, ⟨q, rest, i, _, _, _, h⟩ | ⟨q, rest, r, _, _, _, rfl⟩ | ⟨_, rfl⟩ | ⟨i, _, h⟩⟩ := step_next_cases h
  · simpa using exec_cfg h
  · exact .inl rfl
  · exact .inl rfl
  · exact exec_cfg h

/-- Away from IDLE a move counts `i` up at TX_DATA and `j` at RX_DATA, by 1, and keeps them elsewhere (R33). -/
theorem Move.indexes {s t : State} (h : Move s t) (hidle : s.pc ≠ .idle) :
    t.i = s.i + (if s.pc = .txData then 1 else 0) ∧ t.j = s.j + (if s.pc = .rxData then 1 else 0) := by
  cases h
  case calculate | initOk | initFail | classify | unconfigured | setup | badLength | reject => exact absurd ‹s.pc = .idle› hidle
  case pollAbort op e hp hf hc => rcases hp with hp | hp | hp <;> simp [hp]
  case pollStay op p hp hk hf hc hphase hv => rcases hk with rfl | rfl | rfl <;> simp [hp]
  case send op hp hf ho hi hj => simp [hp]
  case receiveMore op hp hf ho hj hi hl => simp [hp]
  case receiveLast op hp hf ho hj hi hl => simp [hp]
  case finish | timing | delay | addressStay | addressGo | startWrite | startRead | sendReady | sentAll | sentFirst | stop |
      restart | receiveReady | clearError | clearNack | flushRead | flushDummy | flushTxe =>
    simp [‹s.pc = _›]

/-! ### The invariant, clause by clause -/

/-- The decoder refuses a descriptor for R105's reasons only, never as a port access. -/
theorem decode_cmd_ne_unknownPortAccess {d : Descriptor} {r : RefuseReason} (h : decode (.cmd d) = .error r) :
    r ≠ .unknownPortAccess := by
  rintro rfl
  simp only [decode, decodeDescriptor, decodeOperation] at h
  split at h
  · simp at h
  · split at h
    · simp at h
    · split at h <;> (try split at h) <;> simp at h

theorem InFlight.op_isSome {s : State} {op : Op} (hf : InFlight s op) : s.op.isSome = true := by simp [hf.op_eq]

/-- A transaction stays in flight while its operation, configuration, lengths and indexes stay. -/
theorem InFlight.frame {s u : State} {op : Op} (hf : InFlight s op) (ho : u.op = s.op) (hc : u.cfg = s.cfg)
    (hm : u.outLen = s.outLen) (hn : u.inLen = s.inLen) (hi : u.i = s.i) (hj : u.j = s.j) : InFlight u op :=
  hf.transfer ho hc hm hn (by rw [hi, hm]; exact hf.i_le) (by rw [hj, hn]; exact hf.j_le)

theorem modeOk_of_phaseOk {t : State} (hm : t.mode = .running) (h : phaseOk t = true) : modeOk t = true := by
  simp [modeOk, hm, h]

/-- After a move the condition of the new control point holds, or the block is refused at IDLE for a reason of a host
operation. -/
theorem Move.modeOk {s t : State} (h : Move s t) (hm : s.mode = .running) : modeOk t = true := by
  cases h
  case calculate | initFail | classify | badLength => exact modeOk_done hm rfl rfl rfl
  case initOk => simp [Machine.modeOk, hm, phaseOk]
  case unconfigured => simp [Machine.modeOk, ‹s.pc = .idle›]
  case setup q rest i op a m n hp hq hi hc hl => exact modeOk_address hm (inFlight_of_setup hi hc hl) (.inl rfl) rfl rfl
  case reject q rest r hp hq hd => simp [Machine.modeOk, hp, decode_cmd_ne_unknownPortAccess hd]
  case finish => simp [Machine.modeOk, hm, phaseOk]
  case timing p hp ho hq => simp [Machine.modeOk, hm, phaseOk, ho, hq]
  case delay p hp ho hq => exact modeOk_done hm rfl (by simp [ho]) rfl
  case stop | receiveLast | clearError | flushDummy | flushTxe => exact modeOk_done hm rfl (‹InFlight s _›).op_isSome rfl
  case addressStay op hp hf hi hj hv => exact modeOk_address hm (hf.frame rfl rfl rfl rfl rfl rfl) (.inl rfl) hi hj
  case addressGo op hp hf hi hj hv => exact modeOk_address hm (hf.frame rfl rfl rfl rfl rfl rfl) (.inr rfl) hi hj
  case startWrite op hp hf ho hi hj =>
    have hlt : s.i < s.outLen := by
      have := hf.outLen (by rcases ho with rfl | rfl <;> rfl)
      omega
    exact modeOk_send hm (hf.frame rfl rfl rfl rfl rfl rfl) (.inl rfl) ho hlt hj
  case startRead hp hf hi hj =>
    have hlt : s.j < s.inLen := by
      have := hf.inLen rfl
      omega
    exact modeOk_receive hm (hf.frame rfl rfl rfl rfl rfl rfl) (.inl rfl) (.inl rfl) hlt (hi.trans (hf.noOut rfl).symm)
  case pollAbort op e hp hf hc =>
    refine modeOk_abort hm (hf.frame rfl rfl rfl rfl rfl rfl) rfl ?_
    simpa [hc] using classify_cases (draw s)
  case pollStay op p hp hk hf hc hphase hv =>
    subst hp
    exact modeOk_of_phaseOk hm hphase
  case sendReady op hp hf ho hi hj hc hv =>
    exact modeOk_send hm (hf.frame rfl rfl rfl rfl rfl rfl) (.inr rfl) ho hi hj
  case send op hp hf ho hi hj =>
    have hf' := fun p => hf.transfer (u := { portWrite dataOff (dataWord (memRead s.outBuf s.i)) s with
      i := s.i + 1, pc := p }) rfl rfl rfl rfl hi hf.j_le
    by_cases hl : s.i + 1 = s.outLen
    · rw [if_pos hl]
      exact modeOk_sent hm (hf' _) rfl ho hl hj
    · rw [if_neg hl]
      exact modeOk_send hm (hf' _) (.inl rfl) ho (by simp; omega) hj
  case sentAll hp hf hi hj hc hv => exact modeOk_stop hm (hf.frame rfl rfl rfl rfl rfl rfl) rfl rfl hi
  case sentFirst hp hf hi hj hc hv => exact modeOk_restart hm (hf.frame rfl rfl rfl rfl rfl rfl) rfl rfl hi hj
  case restart hp hf hi hj =>
    have hlt : s.j < s.inLen := by
      have := hf.inLen rfl
      omega
    exact modeOk_receive hm (hf.frame rfl rfl rfl rfl rfl rfl) (.inl rfl) (.inr rfl) hlt hi
  case receiveReady op hp hf ho hj hi hc hv =>
    exact modeOk_receive hm (hf.frame rfl rfl rfl rfl rfl rfl) (.inr rfl) ho hj hi
  case receiveMore op hp hf ho hj hi hl =>
    exact modeOk_receive hm (hf.transfer rfl rfl rfl rfl hf.i_le hj) (.inl rfl) ho (by simp; omega) hi
  case clearNack op hp hf he => exact modeOk_flush hm (hf.frame rfl rfl rfl rfl rfl rfl) (.inl rfl) he
  case flushRead op hp hf he =>
    refine modeOk_flush hm (hf.frame rfl rfl rfl rfl rfl rfl) (.inr ?_) he
    cases flagTxis (draw s) <;> simp

/-- A move keeps the parameters held, drops them, or takes them from the calculator (R151). -/
theorem Move.params_cases {s t : State} (h : Move s t) :
    t.params = s.params ∨ t.params = none ∨ ∃ c f p, timingCalc c f = .ok p ∧ t.params = some p := by
  cases h
  case initOk q rest c f p hp hq ht => exact .inr (.inr ⟨c, f, p, ht, rfl⟩)
  case finish | delay => exact .inr (.inl rfl)
  all_goals exact .inl rfl

/-- A step keeps every parameter record legal: those of the calculator are, and INIT stores no other (R31, R35). -/
theorem step_paramsOk {s t : State} (hs : step s = .next t) (h : Move s t) (hp : paramsOk s = true) : paramsOk t = true := by
  simp only [paramsOk, Bool.and_eq_true] at hp ⊢
  constructor
  · rcases h.params_cases with e | e | ⟨c, f, p, ht, e⟩ <;> rw [e]
    · exact hp.1
    · rfl
    · exact timingCalc_legal ht
  · rcases step_cfg hs with e | ⟨_, _, e⟩ <;> rw [e]
    · exact hp.2
    · exact hp.1

section
variable {s t : State}

/-- A history grows legally by a legal event. -/
theorem hist_legal_append {e : PortEvent} (h : s.hist.all PortEvent.legal = true) (ht : t.hist = s.hist ++ [e])
    (he : e.legal = true) : t.hist.all PortEvent.legal = true := by
  simp [ht, List.all_append, h, he]

/-- A START word of a length in range is a legal event (R198). -/
theorem startWord_event_legal (a : BitVec 7) {n : Nat} (h : 1 ≤ n ∧ n ≤ 255) :
    (PortEvent.wr ctrlOff (startWriteWord a n)).legal = true ∧ (PortEvent.wr ctrlOff (startReadWord a n)).legal = true :=
  start_words_legal a n h

/-- Every event a move records is legal (R45, R109, R110, R198). -/
theorem Move.hist_legal (h : Move s t) (hp : paramsOk s = true) (hh : s.hist.all PortEvent.legal = true) :
    t.hist.all PortEvent.legal = true := by
  cases h
  case calculate | initOk | initFail | classify | unconfigured | setup | badLength | reject | finish => exact hh
  case addressStay | addressGo | pollAbort | pollStay | sendReady | sentAll | sentFirst | receiveReady | receiveMore |
      receiveLast | flushRead => exact hist_legal_append hh rfl rfl
  case timing p _ _ _ => exact hist_legal_append hh rfl (timingWord_legal p)
  case delay p _ _ hq =>
    have hlegal : p.legal = true := by
      simp only [paramsOk, hq, Bool.and_eq_true] at hp
      exact hp.1
    exact hist_legal_append hh rfl (delayWord_legal p hlegal)
  case startWrite op _ hf ho _ _ =>
    exact hist_legal_append hh rfl (startWord_event_legal s.addr (hf.outLen (by rcases ho with rfl | rfl <;> rfl))).1
  case startRead _ hf _ _ => exact hist_legal_append hh rfl (startWord_event_legal s.addr (hf.inLen rfl)).2
  case restart _ hf _ _ => exact hist_legal_append hh rfl (startWord_event_legal s.addr (hf.inLen rfl)).2
  case send => exact hist_legal_append hh rfl (dataWord_legal _)
  case clearError op e v _ _ _ hv =>
    rcases hv with ⟨_, rfl⟩ | ⟨_, rfl⟩ <;> exact hist_legal_append hh rfl (by decide)
  case stop | clearNack | flushDummy | flushTxe => exact hist_legal_append hh rfl (by decide)

/-- A request taken off the list, its buffers not looked at, leaves the buffers in the canonical form. -/
theorem inboxTail_buffersOk {u : State} {q : Request} {rest : List Request} (hq : s.inbox = q :: rest)
    (h : buffersOk s = true) (ho : u.outBuf = s.outBuf) (hi : u.inBuf = s.inBuf) (hx : u.inbox = rest)
    (hd : u.delivered = s.delivered) : buffersOk u = true := by
  simp only [buffersOk, hq, List.all_cons, Bool.and_eq_true] at h ⊢
  obtain ⟨⟨⟨hout, hin⟩, -, hrest⟩, hdelivered⟩ := h
  rw [ho, hi, hx, hd]
  exact ⟨⟨⟨hout, hin⟩, hrest⟩, hdelivered⟩

/-- A byte stored keeps the buffers in the canonical form. -/
theorem memWrite_buffersOk {u : State} (a : Nat) (v : Byte) (h : buffersOk s = true) (ho : u.outBuf = s.outBuf)
    (hi : u.inBuf = memWrite s.inBuf a v) (hx : u.inbox = s.inbox) (hd : u.delivered = s.delivered) : buffersOk u = true := by
  simp only [buffersOk, Bool.and_eq_true] at h ⊢
  obtain ⟨⟨⟨hout, hin⟩, hinbox⟩, hdelivered⟩ := h
  rw [ho, hi, hx, hd]
  exact ⟨⟨⟨hout, memWrite_wf a v hin⟩, hinbox⟩, hdelivered⟩

/-- A move keeps the buffers in the canonical form: those handed over are, and RX_DATA writes its byte so. -/
theorem Move.buffersOk (h : Move s t) (hb : buffersOk s = true) : buffersOk t = true := by
  cases h
  case calculate | initOk | initFail | classify | reject => exact inboxTail_buffersOk ‹s.inbox = _› hb rfl rfl rfl rfl
  case unconfigured q rest i op a m n hp hq hi hc => exact accept_buffersOk (i := i) hq hb
  case setup q rest i op a m n hp hq hi hc hl => exact accept_buffersOk (i := i) hq hb
  case badLength q rest i op a m n hp hq hi hc hl => exact accept_buffersOk (i := i) hq hb
  case finish => exact finish_buffersOk hb
  case receiveMore | receiveLast => exact memWrite_buffersOk _ _ hb rfl rfl rfl rfl
  all_goals exact hb

end

/-- Every step keeps the invariant. -/
theorem State.Inv.step {s t : State} (hinv : s.Inv) (hs : step s = .next t) : t.Inv :=
  have hmove := move_of_step hinv hs
  { mode := hmove.modeOk (step_next_cases hs).1
    params := step_paramsOk hs hmove hinv.params
    hist := hmove.hist_legal hinv.params hinv.hist
    buffers := hmove.buffersOk hinv.buffers }

end Sys2Proof.Machine

namespace Sys2Proof.Proofs

open Sys2Proof Sys2Proof.Machine

/-- Settles O15: a step is a move, and a move keeps each clause of the invariant. -/
theorem everyStepKeepsTheInvariant : Obligations.EveryStepKeepsTheInvariant := fun _ _ hinv hs => hinv.step hs

/-- Settles O19: of all instructions only DELAY_WR at INIT_D changes `cfg`. -/
theorem onlyInitSetsConfiguration : Obligations.OnlyInitSetsConfiguration := fun _ _ hs => step_cfg hs

/-- Settles O21: a step is a move, and only the moves at TX_DATA and RX_DATA count an index. -/
theorem indexesCountBytesMoved : Obligations.IndexesCountBytesMoved :=
  fun _ _ hinv hs hidle => (move_of_step hinv hs).indexes hidle

end Sys2Proof.Proofs
end

section
/-! The state (10_state): the bounds of the parameter record that the calculator gives (R31, R149), and why it gives none. -/

namespace Sys2Proof.Machine

/-- A field overflow is found by the second check of R147. -/
theorem checkFields_fieldOverflow {r : RawTiming} (h : checkFields r = .defect .fieldOverflow) :
    r.low > 255 ∨ r.high > 255 ∨ r.setup > 255 ∨ r.hold > 255 := by
  unfold checkFields at h
  split at h
  · simp at h
  · split at h
    · assumption
    · simp at h

/-- A quotient by two positive divisors is below a bound that the dividend's own scaled bound gives. -/
theorem ediv_ediv_lt {c d a k : Int} (hd : 0 < d) (ha : 0 < a) (h : c < k * a * d) : c / d / a < k :=
  Int.ediv_lt_of_lt_mul ha (Int.ediv_lt_of_lt_mul hd h)

/-- The Standard prescaler is no negative number (R143). -/
theorem standardPrescaler_nonneg (ratio : Int) : 0 ≤ standardPrescaler ratio := by
  unfold standardPrescaler clampInt
  omega

/-- The Fast prescaler's divisor is the least multiple of 384 that covers the ratio, in units of 384 (R145). -/
theorem fastPrescaler_bounds {ratio : Int} (hr : 4 ≤ ratio) :
    0 ≤ fastPrescaler ratio ∧ 384 * fastPrescaler ratio + 1 ≤ ratio ∧ ratio ≤ 384 * (fastPrescaler ratio + 1) := by
  unfold fastPrescaler
  simp only [Config.fastTicks]
  omega

/-- The delays of the Standard regime: a half period below 256 bounds the ratio, and so the clock (R143, R144). -/
theorem standardRaw_delays {clk ratio : Int} (hhalf : standardHalf ratio < 256) (hclk : clk < (ratio + 1) * 100000) :
    (standardRaw clk ratio).setup ≤ 25 ∧ (standardRaw clk ratio).hold ≤ 63 := by
  obtain ⟨a, ha⟩ : ∃ a, a = standardPrescaler ratio + 1 := ⟨_, rfl⟩
  have hpos : 0 < a := by
    have := standardPrescaler_nonneg ratio
    omega
  have hratio : ratio < 514 * a := by
    rw [standardHalf, ← ha] at hhalf
    have hquot : ratio / a < 514 := by omega
    exact (Int.ediv_lt_iff_lt_mul hpos).mp hquot
  simp only [standardRaw, ← ha]
  have hsetup : clk / 2000000 / a < 26 := ediv_ediv_lt (by omega) hpos (by omega)
  have hhold : clk / 800000 / a < 65 := ediv_ediv_lt (by omega) hpos (by omega)
  omega

/-- The periods of the Fast and Fast-plus regimes: only a ratio that is a multiple of 384 gives a low period of 256 (R145). -/
theorem fastRaw_periods {clk f ratio : Int} (hr : 4 ≤ ratio) :
    (fastRaw clk f ratio).high ≤ 127 ∧ (fastRaw clk f ratio).low ≤ 256 ∧
      (255 < (fastRaw clk f ratio).low ↔ ratio = 384 * (fastPrescaler ratio + 1)) := by
  obtain ⟨hp, -, hle⟩ := fastPrescaler_bounds hr
  obtain ⟨a, ha⟩ : ∃ a, a = fastPrescaler ratio + 1 := ⟨_, rfl⟩
  have hpos : 0 < a := by omega
  rw [← ha] at hle ⊢
  have hquot : ratio / a ≤ 384 := by
    have : ratio / a < 385 := (Int.ediv_lt_iff_lt_mul hpos).mpr (by omega)
    omega
  have hfull : 384 ≤ ratio / a ↔ 384 * a ≤ ratio := Int.le_ediv_iff_mul_le hpos
  simp only [fastRaw, fastHigh, ← ha]
  omega

/-- The delays of the Fast and Fast-plus regimes (R146): the largest hold delay is that of Fast-plus, where a ratio whose low
period does not overflow is below the next multiple of 384. -/
theorem fastRaw_delays {clk f ratio : Int} (hr : 4 ≤ ratio) (hf : f ≤ 1000000)
    (hclk : ∀ bound, f ≤ bound → clk < (ratio + 1) * bound) :
    (fastRaw clk f ratio).setup ≤ 25 ∧ (fastRaw clk f ratio).hold ≤ 95 ∧
      ((fastRaw clk f ratio).low ≤ 255 → (fastRaw clk f ratio).hold ≤ 94) ∧
      (400000 < f → (fastRaw clk f ratio).setup = 0) := by
  obtain ⟨-, -, hfull⟩ := fastRaw_periods (clk := clk) (f := f) hr
  obtain ⟨hp, -, hle⟩ := fastPrescaler_bounds hr
  obtain ⟨low, hlow⟩ : ∃ low, low = (fastRaw clk f ratio).low := ⟨_, rfl⟩
  rw [← hlow] at hfull ⊢
  obtain ⟨a, ha⟩ : ∃ a, a = fastPrescaler ratio + 1 := ⟨_, rfl⟩
  have hpos : 0 < a := by omega
  rw [← ha] at hle hfull
  simp only [fastRaw, ← ha, Config.fFast]
  by_cases hplus : f > 400000
  · have hclk := hclk 1000000 hf
    have hhold : clk / 4000000 / a < 97 := ediv_ediv_lt (by omega) hpos (by omega)
    have hhold' : low ≤ 255 → clk / 4000000 / a < 96 := fun h => ediv_ediv_lt (by omega) hpos (by omega)
    rw [if_pos hplus, if_pos hplus]
    omega
  · have hclk := hclk 400000 (by omega)
    have hsetup : clk / 8000000 / a < 26 := ediv_ediv_lt (by omega) hpos (by omega)
    have hhold : clk / 2000000 / a < 78 := ediv_ediv_lt (by omega) hpos (by omega)
    rw [if_neg hplus, if_neg hplus]
    omega

/-- The clock is below the next multiple of any bound of the frequency, over the integers. -/
theorem clock_lt_int {clk f ratio : Nat} {bound : Int} (hf : 1 ≤ f) (hr : ratio = clk / f) (hb : f ≤ bound) :
    clk < (ratio + 1) * bound := by
  have h : (clk : Int) < (ratio + 1) * f := by exact_mod_cast clock_lt clk f ratio f hf le_rfl hr
  exact h.trans_le (Int.mul_le_mul_of_nonneg_left hb (by omega))

/-- An outcome that no guard gave is what one of the two regimes' post-processing gives (R148). -/
theorem timingCalc_regime {clk f : Word} (hguard : ∀ e, timingCalc clk f ≠ .configErr e)
    (hzero : timingCalc clk f ≠ .defect .zeroTargetFrequency) :
    ∃ ratio : Nat, ratio = clk.toNat / f.toNat ∧ 4 ≤ (ratio : Int) ∧
      (∀ bound : Int, f.toNat ≤ bound → clk.toNat < (ratio + 1) * bound) ∧
      ((f.toNat ≤ 100000 ∧ standardHalf ratio < 256 ∧ timingCalc clk f = postProcess (standardRaw clk.toNat ratio)) ∨
        (100000 < f.toNat ∧ f.toNat ≤ 1000000 ∧ timingCalc clk f = postProcess (fastRaw clk.toNat f.toNat ratio))) := by
  have hmax : f.toNat ≤ 1000000 := by
    by_contra h
    exact hguard .frequencyTooHigh (by rw [timingCalc, timingCalcInt, if_pos (by simp; omega)])
  have hpos : 1 ≤ f.toNat := by
    by_contra h
    exact hzero (by rw [timingCalc, timingCalcInt, if_neg (by simp; omega), if_pos (by omega)])
  obtain ⟨ratio, hratio⟩ : ∃ ratio, ratio = clk.toNat / f.toNat := ⟨_, rfl⟩
  have hmin : 4 ≤ ratio := by
    by_contra h
    refine hguard .ratioOutOfRange ?_
    rw [timingCalc, timingCalcInt, if_neg (by simp; omega), if_neg (by omega), ← Int.natCast_ediv, ← hratio,
      if_pos (by simp; omega)]
  have heq := timingCalc_eq_byRatio clk f ratio hpos hmax hratio hmin
  refine ⟨ratio, hratio, by omega, fun _ hb => clock_lt_int hpos hratio hb, ?_⟩
  by_cases hstd : f.toNat ≤ 100000
  · rw [timingByRatio, if_pos (by simp; omega)] at heq
    by_cases hhalf : standardHalf ratio ≥ 256
    · exact absurd (by rw [heq, if_pos hhalf]) (hguard .frequencyTooHigh)
    · exact .inl ⟨hstd, by omega, by rw [heq, if_neg hhalf]⟩
  · exact .inr ⟨by omega, hmax, by rw [heq, timingByRatio, if_neg (by simp; omega)]⟩

/-- The delays of a record that passed the checks are the regime's, raised to their minimums (R147). -/
theorem postProcess_ok_delays {r : RawTiming} {p : TimingParameters} (h : postProcess r = .ok p) :
    r.low ≤ 255 ∧ (p.setupDelay.toNat : Int) = max r.setup 2 ∧ (p.holdDelay.toNat : Int) = max r.hold 4 := by
  obtain ⟨-, hlow, -, hsetup, hhold, rfl⟩ := checkFields_ok h
  simp only [RawTiming.clamped, Config.setupMin, Config.holdMin] at hlow hsetup hhold
  exact ⟨hlow, ofInt8_toNat (max r.setup 2) (by omega) (by omega), ofInt8_toNat (max r.hold 4) (by omega) (by omega)⟩

/-- The bounds of every Ok's delays (R149 (c)). -/
theorem timingCalc_ok_delays {clk f : Word} {p : TimingParameters} (h : timingCalc clk f = .ok p) :
    2 ≤ p.setupDelay.toNat ∧ p.setupDelay.toNat ≤ 25 ∧ 4 ≤ p.holdDelay.toNat ∧ p.holdDelay.toNat ≤ 94 ∧
      (400000 < f.toNat → p.setupDelay.toNat = 2) := by
  obtain ⟨ratio, hr, h4, hclk, ⟨hf, hhalf, e⟩ | ⟨hf, hf', e⟩⟩ := timingCalc_regime (clk := clk) (f := f) (by simp [h]) (by simp [h])
  · obtain ⟨-, hs, hh⟩ := postProcess_ok_delays (e.symm.trans h)
    have hd := standardRaw_delays hhalf (hclk 100000 (by omega))
    omega
  · obtain ⟨hlow, hs, hh⟩ := postProcess_ok_delays (e.symm.trans h)
    obtain ⟨hsetup, -, hhold, hzero⟩ := fastRaw_delays h4 (by omega) hclk
    have := hhold hlow
    omega

/-- A field overflows only at a Fast or Fast-plus ratio that is a multiple of 384, where the low period is 256 (R149 (e); the
spec's own D14). -/
theorem timingCalc_fieldOverflow {clk f : Word} (h : timingCalc clk f = .defect .fieldOverflow) :
    100000 < f.toNat ∧ (clk.toNat / f.toNat) % 384 = 0 := by
  obtain ⟨ratio, hr, h4, hclk, ⟨hf, hhalf, e⟩ | ⟨hf, hf', e⟩⟩ := timingCalc_regime (clk := clk) (f := f) (by simp [h]) (by simp [h])
  · have hover := checkFields_fieldOverflow (e.symm.trans h)
    have hd := standardRaw_delays hhalf (hclk 100000 (by omega))
    have hlow : (standardRaw clk.toNat ratio).low = standardHalf ratio := rfl
    have hhigh : (standardRaw clk.toNat ratio).high = standardHalf ratio := rfl
    simp only [RawTiming.clamped, Config.setupMin, Config.holdMin] at hover
    omega
  · have hover := checkFields_fieldOverflow (e.symm.trans h)
    obtain ⟨hsetup, hhold, -⟩ := fastRaw_delays h4 (by omega) hclk
    obtain ⟨hhigh, -, hfull⟩ := fastRaw_periods (clk := clk.toNat) (f := f.toNat) h4
    simp only [RawTiming.clamped, Config.setupMin, Config.holdMin] at hover
    have hratio := hfull.mp (by omega)
    rw [← hr]
    exact ⟨hf, by omega⟩

end Sys2Proof.Machine

namespace Sys2Proof.Proofs

open Sys2Proof Sys2Proof.Machine

/-- Settles O26: the clock is below the next multiple of the frequency, which bounds each regime's fields (with the
spec's own D13 for the hold delay and D14 for the overflow). -/
theorem calculatorBounds : Obligations.CalculatorBounds := fun _ _ =>
  ⟨fun _ h => timingCalc_ok_delays h, fun h => timingCalc_fieldOverflow h⟩

end Sys2Proof.Proofs
end

section
/-! The state (10_state): the fields of the configuration and control words, what the clear words ask for, the state after reset,
when there is no step, and what an earlier operation leaves. -/

namespace Sys2Proof.Machine

/-! ### The fields of a word: a narrow value shifted to its place -/

section
variable {w : Nat} (x : BitVec w)

/-- The bits at a field's own place are the field. -/
theorem extractLsb'_field_same {k : Nat} (h : k + w ≤ 32) : (x.setWidth 32 <<< k).extractLsb' k w = x := by
  ext b hb
  have hlt : k + b < 32 := by omega
  simp [BitVec.getElem_extractLsb', hlt, BitVec.getLsbD_eq_getElem hb]

/-- The bits below or above a field's place are zero. -/
theorem extractLsb'_field_apart {k j v : Nat} (h : j + v ≤ k ∨ k + w ≤ j) :
    (x.setWidth 32 <<< k).extractLsb' j v = 0#v := by
  ext b hb
  rcases h with h | h
  · have hlt : j + b < k := by omega
    simp [BitVec.getElem_extractLsb', hlt]
  · have hge : w ≤ j + b - k := by omega
    simp [BitVec.getElem_extractLsb', BitVec.getLsbD_of_ge x _ hge]

theorem extractLsb'_lowField_same (h : w ≤ 32) : (x.setWidth 32).extractLsb' 0 w = x := by
  simpa using extractLsb'_field_same x (k := 0) (by omega)

theorem extractLsb'_lowField_apart {j v : Nat} (h : w ≤ j) : (x.setWidth 32).extractLsb' j v = 0#v := by
  simpa using extractLsb'_field_apart x (k := 0) (j := j) (v := v) (.inr (by omega))

end

theorem bitWord_eq_setWidth (b : Bool) : bitWord b = (BitVec.ofBool b).setWidth 32 := by cases b <;> rfl

/-- The bits of the TIMING word are its three fields and twelve zeros (R39). -/
theorem timingWord_fields (p : TimingParameters) :
    (timingWord p).extractLsb' 0 8 = p.lowPeriod ∧ (timingWord p).extractLsb' 8 8 = p.highPeriod ∧
    (timingWord p).extractLsb' 16 12 = 0 ∧ (timingWord p).extractLsb' 28 4 = p.prescaler := by
  simp [timingWord, BitVec.extractLsb'_or, extractLsb'_field_same, extractLsb'_field_apart, extractLsb'_lowField_same,
    extractLsb'_lowField_apart]

/-- The bits of the DELAY word are its two fields and sixteen zeros (R40). -/
theorem delayWord_fields (p : TimingParameters) :
    (delayWord p).extractLsb' 0 8 = p.setupDelay ∧ (delayWord p).extractLsb' 8 8 = p.holdDelay ∧
    (delayWord p).extractLsb' 16 16 = 0 := by
  simp [delayWord, BitVec.extractLsb'_or, extractLsb'_field_same, extractLsb'_field_apart, extractLsb'_lowField_same,
    extractLsb'_lowField_apart]

section
variable (start rd autoend stop : Bool) (addr : BitVec 7) (n : BitVec 8)

/-- The address and the byte count of a CTRL word, and its reserved fields (R41). -/
theorem ctrlWord_fields :
    (ctrlWord start addr rd n autoend stop).extractLsb' 1 7 = addr ∧
    (ctrlWord start addr rd n autoend stop).extractLsb' 8 2 = 0 ∧
    (ctrlWord start addr rd n autoend stop).extractLsb' 11 2 = 0 ∧
    (ctrlWord start addr rd n autoend stop).extractLsb' 16 8 = n ∧
    (ctrlWord start addr rd n autoend stop).extractLsb' 26 6 = 0 := by
  simp [ctrlWord, bitWord_eq_setWidth, BitVec.extractLsb'_or, extractLsb'_field_same, extractLsb'_field_apart]

/-- The one-bit fields of a CTRL word, and its reserved bits (R41). -/
theorem ctrlWord_bits :
    (ctrlWord start addr rd n autoend stop).getLsbD 0 = false ∧
    (ctrlWord start addr rd n autoend stop).getLsbD 10 = rd ∧
    (ctrlWord start addr rd n autoend stop).getLsbD 13 = start ∧
    (ctrlWord start addr rd n autoend stop).getLsbD 14 = stop ∧
    (ctrlWord start addr rd n autoend stop).getLsbD 15 = false ∧
    (ctrlWord start addr rd n autoend stop).getLsbD 24 = false ∧
    (ctrlWord start addr rd n autoend stop).getLsbD 25 = autoend := by
  simp [ctrlWord, bitWord_eq_setWidth]

end

/-! ### The mode and the transaction dispatch -/

/-- Once refused the machine has no step (R37). -/
theorem step_refused {s : State} {r : RefuseReason} (hm : s.mode = .refused r) : step s = .refused (.halted r) := by
  simp [step, fetch, hm]

/-- At IDLE with nothing asked the machine has no step (R180). -/
theorem step_idle_empty {s : State} (hm : s.mode = .running) (hp : s.pc = .idle) (hq : s.inbox = []) :
    step s = .refused .noOperation := by
  simp [step, fetch, hm, hp, fetchCommand, hq]

/-- A configured transaction with legal lengths is set up (R183). -/
theorem exec_setup {s : State} {i : Instr} {op : Op} {a : BitVec 7} {m n : Nat} (hi : transactionOf i = some (op, a, m, n))
    (hc : s.cfg ≠ none) (hl : lengthsOk op m n = true) :
    exec i s = .next (setupTransaction a m n { s with op := some op }) := by
  have hstart : exec i s = .next (startTransaction op a m n s) := by
    cases i <;> simp only [transactionOf, reduceCtorEq, Option.some.injEq, Prod.mk.injEq] at hi <;>
      obtain ⟨rfl, rfl, rfl, rfl⟩ := hi <;> rfl
  rw [hstart, startTransaction, if_neg hc, if_pos hl]

/-- The step at IDLE that sets up a transaction (R180, R183). -/
theorem step_setup {s : State} {q : Request} {rest : List Request} {i : Instr} {op : Op} {a : BitVec 7} {m n : Nat}
    (hm : s.mode = .running) (hp : s.pc = .idle) (hq : s.inbox = q :: rest) (hd : decode (.cmd q.descriptor) = .ok i)
    (hi : transactionOf i = some (op, a, m, n)) (hc : s.cfg ≠ none) (hl : lengthsOk op m n = true) :
    step s = .next (setupTransaction a m n { accept i q rest s with op := some op }) :=
  (step_idle_run hm hp hq hd).trans (exec_setup hi hc hl)

theorem lengthOk_iff (n : Nat) : lengthOk n = true ↔ 1 ≤ n ∧ n ≤ 255 := by simp [lengthOk]

end Sys2Proof.Machine

namespace Sys2Proof.Proofs

open Sys2Proof Sys2Proof.Machine

/-- Settles O38: the setup overwrites every register and buffer of the operation that an earlier one may have left, so that the
two states agree afterwards in all but `result` and the buffer not handed over. -/
theorem callsAreIndependent : Obligations.CallsAreIndependent := by
  intro s s' q rest addr m n hm hp hq hc hm1 hm2 hn1 hn2 hs'
  have setup' {i : Instr} {op : Op} {a : BitVec 7} {k l : Nat} := step_setup (s := s') (i := i) (op := op) (a := a) (m := k)
    (n := l) ((congrArg State.mode hs').trans hm) ((congrArg State.pc hs').trans hp) ((congrArg State.inbox hs').trans hq)
  obtain ⟨op', addr', outLen', inLen', i', j', err', outBuf', inBuf', result', rfl⟩ :
      ∃ op' addr' outLen' inLen' i' j' err' outBuf' inBuf' result',
        s' = { s with op := op', addr := addr', outLen := outLen', inLen := inLen', i := i', j := j', err := err',
                      outBuf := outBuf', inBuf := inBuf', result := result' } := ⟨_, _, _, _, _, _, _, _, _, _, hs'⟩
  have hlm := (lengthOk_iff m.toNat).mpr ⟨hm1, hm2⟩
  have hln := (lengthOk_iff n.toNat).mpr ⟨hn1, hn2⟩
  refine ⟨fun hd => ?_, fun hd => ?_, fun hd => ?_⟩
  · have hl : lengthsOk .write m.toNat 0 = true := by simp [lengthsOk, hlm, Op.hasIn]
    exact ⟨_, step_setup hm hp hq hd rfl hc hl, setup' hd rfl hc hl⟩
  · have hl : lengthsOk .read 0 n.toNat = true := by simp [lengthsOk, hln, Op.hasOut]
    exact ⟨_, step_setup hm hp hq hd rfl hc hl, setup' hd rfl hc hl⟩
  · have hl : lengthsOk .writeRead m.toNat n.toNat = true := by simp [lengthsOk, hlm, hln]
    exact ⟨_, step_setup hm hp hq hd rfl hc hl, setup' hd rfl hc hl⟩

/-- Settles O6, field by field. -/
theorem configurationWordFields : Obligations.ConfigurationWordFields := by
  intro p
  obtain ⟨hlow, hhigh, hreserved, hprescaler⟩ := timingWord_fields p
  exact ⟨hlow, hhigh, hreserved, hprescaler, delayWord_fields p⟩

/-- Settles O7, field by field. -/
theorem controlWordFields : Obligations.ControlWordFields := by
  rintro start rd autoend stop addr n _ rfl
  obtain ⟨haddr, h8, h11, hcount, h26⟩ := ctrlWord_fields start rd autoend stop addr n
  obtain ⟨h0, hrd, hstart, hstop, h15, h24, hautoend⟩ := ctrlWord_bits start rd autoend stop addr n
  exact ⟨h0, haddr, h8, hrd, h11, hstart, hstop, h15, hcount, h24, hautoend, h26⟩

/-- Settles O12: the two states in which the fetch finds nothing to run. -/
theorem noStepWhenRefusedOrUnasked : Obligations.NoStepWhenRefusedOrUnasked :=
  ⟨fun _ _ hm => step_refused hm, fun _ hm hp hq => step_idle_empty hm hp hq⟩

/-- Settles O13: the reset state is one fixed record. -/
theorem resetState : Obligations.ResetState := by
  unfold Obligations.ResetState
  decide

/-- Settles O14: reset is IDLE with nothing in flight, no parameters and no history, and its buffers are empty. -/
theorem invariantHoldsAtReset : Obligations.InvariantHoldsAtReset := fun _ _ _ hinbox =>
  { mode := rfl
    params := rfl
    hist := rfl
    buffers := by simpa [buffersOk, State.reset, Memory.wf, memSorted] using hinbox }

/-- Settles O33: each CLEAR word lies within the clearable flags, and names the flags of its kind. -/
theorem clearWordsNameTheImplicatedFlags : Obligations.ClearWordsNameTheImplicatedFlags := by
  refine ⟨?_, ?_, ?_, by decide, by decide, by decide, rfl⟩ <;> rintro v status ⟨⟩
  · have hflag : clrBerr &&& clearableFlags = 1#32 <<< 8 := by decide
    rw [requestedClear, hflag]
  · have hflag : clrArlo &&& clearableFlags = 1#32 <<< 9 := by decide
    rw [requestedClear, hflag]
  · have hflags : ~~~(clrNack &&& clearableFlags) = ~~~(1#32 <<< 4) &&& ~~~(1#32 <<< 5) := by decide
    rw [requestedClear, hflags, BitVec.and_assoc]

end Sys2Proof.Proofs
end

section
/-! The memory and the port (20_memory): which port accesses decode, what touches the buffers, and the accesses and indexes out of
place. -/

namespace Sys2Proof.Machine

/-! ### The decoder of port accesses -/

/-- The eight selectors decode to the instructions they encode; every other selector is unknown (R110). -/
theorem decodeSelector_cases (sel : Selector) :
    (PortRequest.wellFormed ⟨sel, 4⟩ = true ∧ ∃ i, decodeSelector sel = .ok i ∧ encode i = portWord sel) ∨
      (PortRequest.wellFormed ⟨sel, 4⟩ = false ∧ decodeSelector sel = .error .unknownPortAccess) := by
  have hsel : sel = BitVec.ofNat 9 sel.toNat := by simp
  unfold decodeSelector
  split
  case h_9 h1 h2 h3 h4 h5 h6 h7 h8 =>
    exact .inr ⟨by simpa [PortRequest.wellFormed] using And.intro h1 ⟨h2, h3, h4, h5, h6, h7, h8⟩, rfl⟩
  all_goals
    rename_i h
    rw [h] at hsel
    subst hsel
    exact .inl ⟨rfl, _, rfl, rfl⟩

/-- A port access of a width that is not 4 is not well formed (R74). -/
theorem PortRequest.wellFormed_of_width_ne {p : PortRequest} (h : p.width ≠ 4) : p.wellFormed = false := by
  simp [PortRequest.wellFormed, h]

/-! ### The buffers -/

@[simp] theorem poll_outBuf (v : Word) (awaited : Bool) (ready stay : ControlPoint) (t : State) :
    (poll v awaited ready stay t).outBuf = t.outBuf := by
  rcases poll_cases v awaited ready stay t with ⟨e, _, h⟩ | ⟨_, _, h⟩ | ⟨_, _, h⟩ <;> simp [h]

@[simp] theorem poll_inBuf (v : Word) (awaited : Bool) (ready stay : ControlPoint) (t : State) :
    (poll v awaited ready stay t).inBuf = t.inBuf := by
  rcases poll_cases v awaited ready stay t with ⟨e, _, h⟩ | ⟨_, _, h⟩ | ⟨_, _, h⟩ <;> simp [h]

/-- A port access keeps the output buffer, and one that is no DATA read keeps the input buffer too (R70, R76). -/
theorem exec_issued_buffers {p : ControlPoint} {i : Instr} {s t : State} (hi : issuedInstr p = some i)
    (h : exec i s = .next t) : t.outBuf = s.outBuf ∧ (i ≠ .dataRd → t.inBuf = s.inBuf) := by
  cases i <;> simp only [exec] at h
  case calculate | init | write | read | writeRead | classify => cases p <;> simp [issuedInstr] at hi
  case statusRd =>
    rcases execStatusRd_cases h with ⟨_, _, rfl⟩ | ⟨_, _, rfl⟩ | ⟨_, rfl⟩ | ⟨_, rfl⟩ | ⟨_, rfl⟩ | ⟨_, _, rfl⟩ |
      ⟨_, _, rfl⟩ | ⟨_, rfl⟩ <;> simp
  case dataRd => rcases execDataRd_cases h with ⟨_, _, u, rfl, ⟨_, rfl⟩ | ⟨_, rfl⟩⟩ | ⟨_, rfl⟩ <;> simp
  case ctrlWr => rcases execCtrlWr_cases h with ⟨_, _, rfl⟩ | ⟨_, _, rfl⟩ | ⟨_, rfl⟩ | ⟨_, rfl⟩ | ⟨_, rfl⟩ <;> simp
  case timingWr => rcases execTimingWr_cases h with ⟨p, _, _, rfl⟩ | ⟨_, rfl⟩ <;> simp
  case statusWr => rcases execStatusWr_cases h with ⟨_, rfl⟩ | ⟨_, rfl⟩ <;> simp
  case clearWr => rcases execClearWr_cases h with ⟨e, v, _, _, _, ⟨_, rfl⟩ | ⟨_, rfl⟩⟩ | ⟨_, rfl⟩ <;> simp
  case dataWr => rcases execDataWr_cases h with ⟨_, _, rfl⟩ | ⟨_, rfl⟩ | ⟨_, _, rfl⟩ <;> simp
  case delayWr => rcases execDelayWr_cases h with ⟨p, _, _, rfl⟩ | ⟨_, rfl⟩ <;> simp

/-- The DATA read at RX_DATA has its index in range and writes the input buffer there only (R76, R192). -/
theorem execDataRd_inBuf {s t : State} (h : execDataRd s = .next t) (hp : s.pc = .rxData) :
    s.j < s.inLen ∧ t.inBuf = memWrite s.inBuf s.j (dataByte (draw s)) := by
  rcases execDataRd_cases h with ⟨_, hj, u, rfl, ⟨_, rfl⟩ | ⟨_, rfl⟩⟩ | ⟨hne, _⟩
  · exact ⟨hj, rfl⟩
  · exact ⟨hj, rfl⟩
  · exact absurd hp hne

theorem issuedInstr_eq_dataRd_iff (p : ControlPoint) : issuedInstr p = some .dataRd ↔ p = .rxData := by
  cases p <;> simp [issuedInstr]

/-! ### Accesses and indexes out of place -/

/-- A port access is refused at every control point that does not issue it (log 7). -/
theorem exec_of_not_issued {s : State} {i : Instr} {sel : Selector} (he : encode i = portWord sel)
    (hs : issuedSelector s.pc ≠ some sel) : exec i s = .next (refuse .unknownPortAccess s) := by
  cases i <;> simp only [encode, portWord, Encoded.port.injEq, PortRequest.mk.injEq, and_true, reduceCtorEq] at he <;>
    subst he
  case statusRd => cases hp : s.pc <;> simp [exec, execStatusRd, hp, issuedSelector] at hs ⊢
  case dataRd => cases hp : s.pc <;> simp [exec, execDataRd, hp, issuedSelector] at hs ⊢
  case ctrlWr => cases hp : s.pc <;> simp [exec, execCtrlWr, ctrlOperand, hp, issuedSelector] at hs ⊢
  case timingWr => cases hp : s.pc <;> simp [exec, execTimingWr, hp, issuedSelector] at hs ⊢
  case statusWr => cases hp : s.pc <;> simp [exec, execStatusWr, hp, issuedSelector] at hs ⊢
  case clearWr => cases hp : s.pc <;> simp [exec, execClearWr, hp, issuedSelector] at hs ⊢
  case dataWr => cases hp : s.pc <;> simp [exec, execDataWr, hp, issuedSelector] at hs ⊢
  case delayWr => cases hp : s.pc <;> simp [exec, execDelayWr, hp, issuedSelector] at hs ⊢

/-- CTRL_WR has no operand at ADDR_PROG without a transaction (log 7). -/
theorem ctrlOperand_addrProg_none {s : State} (hp : s.pc = .addrProg) (hw : s.op ≠ some .write) (hr : s.op ≠ some .read)
    (hwr : s.op ≠ some .writeRead) : ctrlOperand s = none := by
  rcases ho : s.op with _ | op
  · simp [ctrlOperand, hp, ho]
  · cases op <;> simp [ctrlOperand, hp, ho] at hw hr hwr ⊢

end Sys2Proof.Machine

namespace Sys2Proof.Proofs

open Sys2Proof Sys2Proof.Machine

/-- Settles O4: the width decides, then the selector. -/
theorem portAccessDecodesOrIsUnknown : Obligations.PortAccessDecodesOrIsUnknown := by
  rintro ⟨sel, width⟩
  by_cases hw : width = 4
  · subst hw
    rcases decodeSelector_cases sel with ⟨hwf, i, hd, he⟩ | ⟨hwf, hd⟩
    · exact ⟨fun _ => ⟨i, hd, he⟩, fun h => by simp [hwf] at h⟩
    · exact ⟨fun h => by simp [hwf] at h, fun _ => hd⟩
  · have hwf : PortRequest.wellFormed ⟨sel, width⟩ = false := PortRequest.wellFormed_of_width_ne hw
    exact ⟨fun h => by simp [hwf] at h, fun _ => if_neg hw⟩

/-- Settles O20: the return keeps both buffers, a port access keeps `OutBuf`, and only the DATA read, which RX_DATA alone
issues, writes `InBuf`, at index `j`. -/
theorem buffersOnlyTouchedInPlace : Obligations.BuffersOnlyTouchedInPlace := by
  intro s t hstep
  obtain ⟨-, ⟨q, rest, i, hp, -, -, -⟩ | ⟨q, rest, r, hp, -, -, -⟩ | ⟨hp, rfl⟩ | ⟨i, hi, h⟩⟩ := step_next_cases hstep
  · simp [hp]
  · simp [hp]
  · simp [hp]
  · obtain ⟨hout, hin⟩ := exec_issued_buffers hi h
    refine ⟨fun _ => hout, fun _ hne => hin ?_, fun hp => ?_⟩
    · rintro rfl
      exact hne ((issuedInstr_eq_dataRd_iff _).mp hi)
    · obtain rfl : i = .dataRd := by simpa [hp, issuedInstr] using hi.symm
      obtain ⟨hj, hbuf⟩ := execDataRd_inBuf h hp
      exact ⟨hj, fun a ha => by rw [hbuf, memRead_memWrite_other _ _ ha]⟩

/-- Settles O45: each access checks its index before anything else. -/
theorem indexOutsideTheBufferFaults : Obligations.IndexOutsideTheBufferFaults := by
  intro s
  constructor
  · intro hp hi
    simp [exec, execDataWr, hp, hi]
  · intro hp hj
    simp [exec, execDataRd, hp, hj]

/-- Settles O48: away from its control points an access is refused, and so is one whose operand is missing there. -/
theorem accessWithoutAnOperandRefused : Obligations.AccessWithoutAnOperandRefused := by
  intro s
  refine ⟨fun i sel he hs => exec_of_not_issued he hs, ?_, ?_, ?_, ?_⟩
  · intro hp hw hr hwr
    simp [exec, execCtrlWr, ctrlOperand_addrProg_none hp hw hr hwr, refuse]
  · intro hp hq
    simp [exec, execTimingWr, hp, hq, refuse]
  · intro hp hq
    simp [exec, execDelayWr, hp, hq, refuse]
  · rintro hp (he | he)
    · simp [exec, execClearWr, hp, he, refuse]
    · simp [exec, execClearWr, hp, he, clearOperand, refuse]

end Sys2Proof.Proofs
end

section
/-! Progress (20_memory R81): what an operation in flight still needs of the environment and of itself, and why it returns. -/

namespace Sys2Proof.Machine

/-! ### Runs -/

/-- Every state of a run from a state that meets the invariant meets it. -/
theorem State.Inv.run {k : Nat} {s t : State} (hinv : s.Inv) (h : runsTo k s t) : t.Inv := by
  induction k generalizing s with
  | zero =>
    injection h with h
    exact h ▸ hinv
  | succ k ih =>
    obtain ⟨u, hs, hu⟩ := runsTo_succ_cases h
    exact ih (hinv.step hs) hu

/-- The premise is kept along a run. -/
theorem EnvProgress.after_run {k : Nat} {s t : State} (h : EnvProgress s) (hr : runsTo k s t) : EnvProgress t :=
  fun j u hu => h (k + j) u (runsTo_add hr hu)

/-- A run of one step. -/
theorem runsTo_one {s t : State} (h : step s = .next t) : runsTo 1 s t := runsTo_succ h (runsTo_zero t)

/-! ### The engine has a step -/

/-- An instruction has a next state where its buffer index is in range: no other fault exists, and no refusal but a mode (R258,
R259; log 12). -/
theorem exec_next (i : Instr) {s : State} (hout : s.pc = .txData → s.i < s.outLen) (hin : s.pc = .rxData → s.j < s.inLen) :
    ∃ t, exec i s = .next t := by
  cases i <;> simp only [exec]
  case calculate | write | read | writeRead | classify => exact ⟨_, rfl⟩
  case init => unfold execInit; split <;> exact ⟨_, rfl⟩
  case statusRd => unfold execStatusRd; dsimp only; split <;> exact ⟨_, rfl⟩
  case dataRd =>
    unfold execDataRd
    split
    · rw [if_pos (hin ‹_›)]
      exact ⟨_, rfl⟩
    · exact ⟨_, rfl⟩
  case ctrlWr => unfold execCtrlWr; split <;> exact ⟨_, rfl⟩
  case timingWr => unfold execTimingWr; split <;> exact ⟨_, rfl⟩
  case statusWr => unfold execStatusWr; split <;> exact ⟨_, rfl⟩
  case clearWr =>
    unfold execClearWr
    split
    · split <;> exact ⟨_, rfl⟩
    · exact ⟨_, rfl⟩
  case dataWr =>
    unfold execDataWr
    split
    · rw [if_pos (hout ‹_›)]
      exact ⟨_, rfl⟩
    · exact ⟨_, rfl⟩
    · exact ⟨_, rfl⟩
  case delayWr => unfold execDelayWr; split <;> exact ⟨_, rfl⟩

theorem State.Inv.phaseOk {s : State} (hinv : s.Inv) (hm : s.mode = .running) : phaseOk s = true := by
  simpa [modeOk, hm] using hinv.mode

/-- Under the invariant the index is in range where a byte is moved (R76). -/
theorem indexes_of_phaseOk {s : State} (h : phaseOk s = true) :
    (s.pc = .txData → s.i < s.outLen) ∧ (s.pc = .rxData → s.j < s.inLen) := by
  constructor <;> intro hp <;> simp only [phaseOk, hp, Bool.and_eq_true, decide_eq_true_eq] at h
  · exact h.1.2
  · exact h.1.2

/-- Away from IDLE and DONE a control point issues an instruction. -/
theorem issuedInstr_isSome {p : ControlPoint} (hidle : p ≠ .idle) (hdone : p ≠ .done) : ∃ i, issuedInstr p = some i := by
  cases p <;> simp [issuedInstr] at hidle hdone ⊢

/-- Away from IDLE a running engine that meets the invariant has a step (R296). -/
theorem State.Inv.exists_step {s : State} (hinv : s.Inv) (hm : s.mode = .running) (hidle : s.pc ≠ .idle) :
    ∃ t, Machine.step s = .next t := by
  by_cases hdone : s.pc = .done
  · exact ⟨_, step_done hm hdone⟩
  · obtain ⟨i, hi⟩ := issuedInstr_isSome hidle hdone
    obtain ⟨hout, hin⟩ := indexes_of_phaseOk (hinv.phaseOk hm)
    rw [step_access hm hi]
    exact exec_next i hout hin

/-- Only a step at IDLE changes the mode. -/
theorem Move.mode_eq {s t : State} (h : Move s t) (hidle : s.pc ≠ .idle) : t.mode = s.mode := by
  cases h
  case unconfigured | reject => exact absurd ‹s.pc = .idle› hidle
  all_goals rfl

/-! ### Polls -/

/-- One of the coming answers ends the polling exactly when the polls at this control point are finitely many (R81). -/
theorem pollEnds_coming_iff {s : State} (hm : s.mode = .running) (hp : isPoll s.pc = true) :
    (∃ n, pollEnds s.pc (comingAnswer s n) = true) ↔ ∃ m t, runsTo m s t ∧ t.pc ≠ s.pc := by
  constructor
  · rintro ⟨n, hn⟩
    induction n generalizing s with
    | zero =>
      rcases step_poll hm hp with ⟨hv, _⟩ | ⟨_, t, hs, hne⟩
      · simp [hv] at hn
      · exact ⟨1, t, runsTo_one hs, hne⟩
    | succ n ih =>
      rcases step_poll hm hp with ⟨_, hs⟩ | ⟨_, t, hs, hne⟩
      · obtain ⟨m, t, hr, hne⟩ := ih (s := portRead statusOff s) hm hp (by simpa using hn)
        exact ⟨m + 1, t, runsTo_succ hs hr, hne⟩
      · exact ⟨1, t, runsTo_one hs, hne⟩
  · rintro ⟨m, t, hr, hne⟩
    induction m generalizing s with
    | zero =>
      injection hr with hr
      exact absurd (by rw [hr]) hne
    | succ m ih =>
      rcases step_poll hm hp with ⟨_, hs⟩ | ⟨hv, _⟩
      · obtain ⟨u, hu, hr⟩ := runsTo_succ_cases hr
        obtain rfl : portRead statusOff s = u := by simpa [hs] using hu
        obtain ⟨n, hn⟩ := ih (s := portRead statusOff s) hm hp hr hne
        exact ⟨n + 1, by simpa using hn⟩
      · exact ⟨0, by simpa using hv⟩

/-- What ends a poll, bit by bit (R81, R184, R186, R188, R191). -/
theorem pollEnds_iff (v : Word) :
    (pollEnds .addrWait v = true ↔ v.getLsbD 14 = false) ∧
    (pollEnds .txPoll v = true ↔ classify v ≠ none ∨ v.getLsbD 0 = true) ∧
    (pollEnds .tcPoll v = true ↔ classify v ≠ none ∨ v.getLsbD 6 = true) ∧
    (pollEnds .rxPoll v = true ↔ classify v ≠ none ∨ v.getLsbD 2 = true) := by
  simp [pollEnds, flagStartPending, flagTxe, flagTc, flagRxne, Option.isSome_iff_ne_none]

theorem isPoll_iff (p : ControlPoint) : isPoll p = true ↔ p = .addrWait ∨ p = .txPoll ∨ p = .tcPoll ∨ p = .rxPoll := by
  cases p <;> simp [isPoll]

/-- A releasing answer ends any poll. -/
theorem pollEnds_of_releasing {p : ControlPoint} {v : Word} (hp : isPoll p = true) (h : releasing v = true) :
    pollEnds p v = true := by
  simp only [releasing, Bool.and_eq_true] at h
  obtain ⟨⟨⟨ha, htx⟩, htc⟩, hrx⟩ := h
  rcases (isPoll_iff p).mp hp with rfl | rfl | rfl | rfl <;> assumption

/-! ### What an operation in flight still needs -/

/-- The reads the operation still makes at most, where every poll ends at its first answer. -/
def answersLeft (s : State) : Nat :=
  match s.pc with
  | .idle | .initT | .initD | .stopIssue | .flushDummy | .flushTxe | .done => 0
  | .addrWait => (s.outLen - s.i) + 2 * (s.inLen - s.j) + 4
  | .addrProg | .txPoll => (s.outLen - s.i) + 2 * (s.inLen - s.j) + 3
  | .txData => (s.outLen - s.i) + 2 * (s.inLen - s.j) + 2
  | .tcPoll => 2 * (s.inLen - s.j) + 3
  | .restartProg | .rxPoll => 2 * (s.inLen - s.j) + 2
  | .rxData => 2 * (s.inLen - s.j) + 1
  | .abortClear | .flushRead => 1

/-- The steps without a read, the writes and the return, that the operation still makes at most. -/
def silentLeft (s : State) : Nat :=
  match s.pc with
  | .idle => 0
  | .initT => 3
  | .initD | .stopIssue | .flushRead | .flushDummy | .flushTxe => 2
  | .addrWait | .addrProg => (s.outLen - s.i) + 5
  | .txPoll | .txData => (s.outLen - s.i) + 4
  | .tcPoll | .restartProg => 4
  | .rxPoll | .rxData | .abortClear => 3
  | .done => 1

/-- What a step away from IDLE uses up: one answer that does not end the poll, one of the reads left, or one of the steps without
a read. -/
inductive Uses (s t : State) : Prop where
  | stay (hp : isPoll s.pc = true) (hv : pollEnds s.pc (draw s) = false) (ht : t = portRead statusOff s)
  | read (he : t.env = s.env.tail) (ha : answersLeft t < answersLeft s) (hw : silentLeft t ≤ silentLeft s)
  | silent (he : t.env = s.env) (ha : answersLeft t ≤ answersLeft s) (hw : silentLeft t < silentLeft s)

/-- A poll that stays is the read alone. -/
theorem uses_stay {s : State} {p : ControlPoint} (hp : s.pc = p) (hk : isPoll p = true) (hv : pollEnds p (draw s) = false) :
    Uses s { portRead statusOff s with pc := p } := by
  subst hp
  exact .stay hk hv rfl

/-- Every move away from IDLE brings the operation nearer to its return, but for a poll that stays. -/
theorem Move.uses {s t : State} (h : Move s t) (hidle : s.pc ≠ .idle) : Uses s t := by
  cases h
  case calculate | initOk | initFail | classify | unconfigured | setup | badLength | reject => exact absurd ‹s.pc = .idle› hidle
  case addressStay op hp hf hi hj hv => exact uses_stay hp rfl (by simp [pollEnds, hv])
  case pollStay op p hp hk hf hc hphase hv =>
    rcases hv with ⟨rfl, hv⟩ | ⟨rfl, hv⟩ | ⟨rfl, hv⟩ <;> exact uses_stay hp rfl (by simp [pollEnds, hc, hv])
  case pollAbort op e hp hf hc =>
    rcases hp with hp | hp | hp <;> exact .read rfl (by simp [answersLeft, hp]) (by simp [silentLeft, hp])
  case addressGo | sendReady | sentAll | sentFirst | receiveReady | receiveLast =>
    exact .read rfl (by simp [answersLeft, ‹s.pc = _›]) (by simp [silentLeft, ‹s.pc = _›])
  case receiveMore op hp hf ho hj hi hl =>
    exact .read rfl (by simp [answersLeft, hp]; omega) (by simp [silentLeft, hp])
  case flushRead op hp hf he =>
    cases hv : flagTxis (draw s) <;> exact .read rfl (by simp [answersLeft, hp]) (by simp [silentLeft, hp])
  case send op hp hf ho hi hj =>
    by_cases hl : s.i + 1 = s.outLen <;>
      exact .silent rfl (by simp [answersLeft, hp, hl]; omega) (by simp [silentLeft, hp, hl]; omega)
  case startRead hp hf hi hj => exact .silent rfl (by simp [answersLeft, hp]; omega) (by simp [silentLeft, hp])
  case finish | timing | delay | startWrite | stop | restart | clearError | clearNack | flushDummy | flushTxe =>
    exact .silent rfl (by simp [answersLeft, ‹s.pc = _›]) (by simp [silentLeft, ‹s.pc = _›])

/-- A poll needs an answer. -/
theorem answersLeft_pos_of_isPoll {s : State} (hp : isPoll s.pc = true) : 0 < answersLeft s := by
  rcases (isPoll_iff s.pc).mp hp with hp | hp | hp | hp <;> simp [answersLeft, hp]

/-- Away from INIT, DONE and IDLE a transaction is in flight. -/
theorem transactionOk_of_phaseOk {s : State} (h : phaseOk s = true) :
    transactionOk s = true ∨ s.pc = .idle ∨ s.pc = .initT ∨ s.pc = .initD ∨ s.pc = .done := by
  cases hp : s.pc <;> simp [phaseOk, hp] at h ⊢ <;> simp [h]

/-- The lengths of a transaction in flight are at most 255 (R182). -/
theorem InFlight.lengths_le {s : State} {op : Op} (hf : InFlight s op) : s.outLen ≤ 255 ∧ s.inLen ≤ 255 := by
  constructor
  · cases ho : op.hasOut
    · simp [hf.noOut ho]
    · exact (hf.outLen ho).2
  · cases hn : op.hasIn
    · simp [hf.noIn hn]
    · exact (hf.inLen hn).2

/-- No operation has more than 769 reads and 260 steps without one left. -/
theorem left_le_of_phaseOk {s : State} (h : phaseOk s = true) : answersLeft s ≤ 769 ∧ silentLeft s ≤ 260 := by
  rcases transactionOk_of_phaseOk h with ht | hp | hp | hp | hp
  · obtain ⟨op, hf⟩ := inFlight_of_transactionOk ht
    have := hf.lengths_le
    cases hp : s.pc <;> simp only [answersLeft, silentLeft, hp] <;> omega
  all_goals simp [answersLeft, silentLeft, hp]

/-! ### The return, with enough answers that end any poll -/

/-- A step leaves enough releasing answers, and fewer answers and silent steps in all. -/
theorem Uses.budget {s t : State} (h : Uses s t) (ha : answersLeft s ≤ s.env.countP releasing) :
    answersLeft t ≤ t.env.countP releasing ∧ t.env.length + silentLeft t < s.env.length + silentLeft s := by
  cases h with
  | silent he hle hlt => rw [he]; omega
  | read he hlt hle =>
    rw [he]
    cases henv : s.env with
    | nil => simp [henv] at ha; omega
    | cons v rest =>
      simp only [henv, List.countP_cons, List.tail_cons, List.length_cons] at ha ⊢
      split at ha <;> omega
  | stay hp hv ht =>
    subst ht
    have hpos := answersLeft_pos_of_isPoll hp
    have hsame : answersLeft (portRead statusOff s) = answersLeft s ∧ silentLeft (portRead statusOff s) = silentLeft s :=
      ⟨rfl, rfl⟩
    rw [hsame.1, hsame.2, portRead_env]
    cases henv : s.env with
    | nil => simp [henv] at ha; omega
    | cons v rest =>
      have hno : releasing v ≠ true := by
        intro hr
        rw [draw_of_env_cons henv, pollEnds_of_releasing hp hr] at hv
        exact absurd hv (by simp)
      simp only [henv, List.countP_cons, if_neg hno, List.tail_cons, List.length_cons] at ha ⊢
      omega

/-- With as many releasing answers listed as the operation needs it returns, in at most as many steps as there are answers and
silent steps left. -/
theorem returns_of_releasing {s : State} (hinv : s.Inv) (hm : s.mode = .running)
    (ha : answersLeft s ≤ s.env.countP releasing) :
    ∃ k t, k ≤ s.env.length + silentLeft s ∧ runsTo k s t ∧ t.mode = .running ∧ t.pc = .idle := by
  by_cases hidle : s.pc = .idle
  · exact ⟨0, s, Nat.zero_le _, runsTo_zero s, hm, hidle⟩
  · obtain ⟨t, hs⟩ := hinv.exists_step hm hidle
    have hmove := move_of_step hinv hs
    obtain ⟨ha', hlt⟩ := (hmove.uses hidle).budget ha
    obtain ⟨k, u, hk, hr, hu⟩ := returns_of_releasing (hinv.step hs) ((hmove.mode_eq hidle).trans hm) ha'
    exact ⟨k + 1, u, by omega, runsTo_succ hs hr, hu⟩
termination_by s.env.length + silentLeft s

/-! ### The return, under the premise -/

/-- Where one of the coming answers ends the poll, or there is no poll, the run comes nearer to the return. -/
theorem runs_nearer {n : Nat} {s : State} (hinv : s.Inv) (hm : s.mode = .running) (hidle : s.pc ≠ .idle)
    (hn : isPoll s.pc = true → pollEnds s.pc (comingAnswer s n) = true) :
    ∃ k t, runsTo k s t ∧ t.mode = .running ∧ answersLeft t + silentLeft t < answersLeft s + silentLeft s := by
  obtain ⟨t, hs⟩ := hinv.exists_step hm hidle
  have hmove := move_of_step hinv hs
  have hm' := (hmove.mode_eq hidle).trans hm
  cases hmove.uses hidle with
  | read _ ha hw => exact ⟨1, t, runsTo_one hs, hm', by omega⟩
  | silent _ ha hw => exact ⟨1, t, runsTo_one hs, hm', by omega⟩
  | stay hp hv ht =>
    subst ht
    cases n with
    | zero => exact absurd (hn hp) (by simp [hv])
    | succ n =>
      obtain ⟨k, u, hr, hu⟩ := runs_nearer (n := n) (hinv.step hs) hm' hidle (by simpa using hn)
      exact ⟨k + 1, u, runsTo_succ hs hr, hu⟩
termination_by n

/-- The premise names an answer for the poll at the state itself. -/
theorem EnvProgress.coming {s : State} (h : EnvProgress s) (hm : s.mode = .running) :
    ∃ n, isPoll s.pc = true → pollEnds s.pc (comingAnswer s n) = true := by
  by_cases hp : isPoll s.pc = true
  · obtain ⟨n, hn⟩ := h 0 s (runsTo_zero s) hm hp
    exact ⟨n, fun _ => hn⟩
  · exact ⟨0, fun h => absurd h hp⟩

/-- Under the premise the run returns: what is left of the operation falls from poll to poll. -/
theorem returns_of_envProgress {s : State} (hinv : s.Inv) (hm : s.mode = .running) (henv : EnvProgress s) :
    ∃ k t, runsTo k s t ∧ t.mode = .running ∧ t.pc = .idle := by
  by_cases hidle : s.pc = .idle
  · exact ⟨0, s, runsTo_zero s, hm, hidle⟩
  · obtain ⟨n, hn⟩ := henv.coming hm
    obtain ⟨k, t, hr, hm', hlt⟩ := runs_nearer hinv hm hidle hn
    obtain ⟨k', u, hr', hu⟩ := returns_of_envProgress (hinv.run hr) hm' (henv.after_run hr)
    exact ⟨k + k', u, runsTo_add hr hr', hu⟩
termination_by answersLeft s + silentLeft s

end Sys2Proof.Machine

namespace Sys2Proof.Proofs

open Sys2Proof Sys2Proof.Machine

/-- Settles O54: no operation needs more than 769 answers and 260 steps without a read, and a releasing answer ends the poll that
reads it, wherever it comes. -/
theorem operationReturnsUnderProgress : Obligations.OperationReturnsUnderProgress := by
  intro s hinv hm hcount
  obtain ⟨ha, hw⟩ := left_le_of_phaseOk (hinv.phaseOk hm)
  obtain ⟨k, t, hk, hr, hu⟩ := returns_of_releasing hinv hm (ha.trans hcount)
  exact ⟨k, t, by omega, hr, hu⟩

/-- Settles O56: a poll reads the coming answers one by one until one ends it. -/
theorem envProgressMeansFinitePolls : Obligations.EnvProgressMeansFinitePolls := by
  refine ⟨pollEnds_iff, isPoll_iff, fun s => ⟨fun h k u hr hm hp => ?_, fun h k u hr hm hp => ?_⟩⟩
  · exact (pollEnds_coming_iff hm hp).mp (h k u hr hm hp)
  · exact (pollEnds_coming_iff hm hp).mpr (h k u hr hm hp)

/-- Settles O57: every poll of the run ends, and what is left of the operation is finite. -/
theorem operationReturnsUnderEnvProgress : Obligations.OperationReturnsUnderEnvProgress :=
  fun _ hinv hm henv => returns_of_envProgress hinv hm henv

end Sys2Proof.Proofs
end

section
/-! The encoding (30_encoding): what the decoder answers by the checks of R105, and that it is the encoder's inverse. -/

namespace Sys2Proof

/-! ### The first word of a descriptor -/

/-- A first word whose reserved bits are zero is its two fields (R101). -/
theorem descriptorWord_of_reservedField {w : Word} (h : reservedField w = 0) :
    descriptorWord (opField w) (addrField w) = w := by
  have hres : w.toNat / 32768 = 0 := by simpa [reservedField_toNat] using congrArg BitVec.toNat h
  apply BitVec.eq_of_toNat_eq
  rw [descriptorWord_toNat, opField_toNat, addrField_toNat]
  omega

section
variable (op : BitVec 8) (a : BitVec 7)

theorem descriptorWord_mod_256 : (descriptorWord op a).toNat % 256 = op.toNat := by
  rw [← opField_toNat, opField_descriptorWord]

theorem descriptorWord_div_256 : (descriptorWord op a).toNat / 256 % 128 = a.toNat := by
  rw [← addrField_toNat, addrField_descriptorWord]

end

/-- The opcode map of R104, by the number of the OP and by its bits. -/
theorem opListed_iff (d : Descriptor) : d.opListed = true ↔ opKnown (opField d.w0) = true := by
  simp [Descriptor.opListed, opKnown, ← BitVec.toNat_inj, opField_toNat, or_assoc]

theorem reservedZero_iff (d : Descriptor) : d.reservedZero = true ↔ reservedField d.w0 = 0 := by
  simp [Descriptor.reservedZero, ← BitVec.toNat_inj, reservedField_toNat]

/-! ### The decoder by the checks -/

/-- A decoder that gives `i` where a condition holds and a refusal elsewhere, and the check `b` of that condition: `b` decides. -/
theorem decoded_by_check {c : Prop} [Decidable c] {b : Bool} {i : Instr} {r : RefuseReason} {e : Encoded}
    (hb : b = true ↔ c) (he : c → encode i = e) :
    (b = true ∧ ∃ j, (if c then .ok i else .error r : Except RefuseReason Instr) = .ok j ∧ encode j = e) ∨
      (b = false ∧ (if c then .ok i else .error r : Except RefuseReason Instr) = .error r) := by
  by_cases hc : c
  · exact .inl ⟨hb.mpr hc, i, if_pos hc, he hc⟩
  · exact .inr ⟨Bool.eq_false_iff.mpr (mt hb.mp hc), if_neg hc⟩

/-- With a known OP and nothing in the reserved bits, checks 3 and 4 decide; a descriptor that passes is the encoding of its
instruction (R102, R105). -/
theorem decodeOperation_by_checks {op : BitVec 8} {a : BitVec 7} {w1 w2 : Word} {d : Descriptor} (hop : opKnown op = true)
    (hd : d = ⟨descriptorWord op a, w1, w2⟩) :
    ((d.addressAllowed && d.operandsAllowed) = true ∧ ∃ i, decodeOperation op a w1 w2 = .ok i ∧ encode i = .cmd d) ∨
      ((d.addressAllowed && d.operandsAllowed) = false ∧ decodeOperation op a w1 w2 = .error .reservedFieldNonzero) := by
  subst hd
  simp only [Descriptor.addressAllowed, Descriptor.operandsAllowed, descriptorWord_mod_256, descriptorWord_div_256]
  simp only [opKnown, Bool.or_eq_true, beq_iff_eq] at hop
  rcases hop with ((((rfl | rfl) | rfl) | rfl) | rfl) | rfl
  · exact decoded_by_check (c := a = 0) (by simp [← BitVec.toNat_inj]) (by rintro rfl; rfl)
  · exact decoded_by_check (c := a = 0) (by simp [← BitVec.toNat_inj]) (by rintro rfl; rfl)
  · exact decoded_by_check (c := w2 = 0) (by simp [← BitVec.toNat_inj]) (by rintro rfl; rfl)
  · exact decoded_by_check (c := w1 = 0) (by simp [← BitVec.toNat_inj]) (by rintro rfl; rfl)
  · exact .inl ⟨rfl, .writeRead a w1 w2, rfl, rfl⟩
  · exact decoded_by_check (c := a = 0 ∧ w2 = 0) (by simp [← BitVec.toNat_inj]) (by rintro ⟨rfl, rfl⟩; rfl)

/-- What the decoder answers to a descriptor: the first check names the unknown operation, the other three the nonzero field; a
well-formed descriptor is the encoding of its instruction (R105). -/
theorem decode_cmd_by_checks (d : Descriptor) :
    (d.opListed = false ∧ decode (.cmd d) = .error .unknownOperation) ∨
      (d.opListed = true ∧ d.wellFormed = false ∧ decode (.cmd d) = .error .reservedFieldNonzero) ∨
      (d.wellFormed = true ∧ ∃ i, decode (.cmd d) = .ok i ∧ encode i = .cmd d) := by
  simp only [decode, decodeDescriptor]
  by_cases hop : opKnown (opField d.w0) = true
  · have hlisted := (opListed_iff d).mpr hop
    by_cases hres : reservedField d.w0 = 0
    · have hd : d = ⟨descriptorWord (opField d.w0) (addrField d.w0), d.w1, d.w2⟩ := by
        rw [descriptorWord_of_reservedField hres]
      have hwf : d.wellFormed = (d.addressAllowed && d.operandsAllowed) := by
        simp [Descriptor.wellFormed, hlisted, (reservedZero_iff d).mpr hres]
      rw [if_neg (by simp [hop]), if_neg (by simp [hres]), hwf]
      rcases decodeOperation_by_checks hop hd with hok | hbad
      · exact .inr (.inr hok)
      · exact .inr (.inl ⟨hlisted, hbad⟩)
    · have hzero : d.reservedZero = false := Bool.eq_false_iff.mpr (mt (reservedZero_iff d).mp hres)
      rw [if_neg (by simp [hop]), if_pos hres]
      exact .inr (.inl ⟨hlisted, by simp [Descriptor.wellFormed, hzero], rfl⟩)
  · have hlisted : d.opListed = false := by simpa [← opListed_iff] using hop
    rw [if_pos (by simpa using hop)]
    exact .inl ⟨hlisted, rfl⟩

/-! ### The decoder and the encoder -/

/-- Decoding an instruction's encoding gives the instruction (R101 to R104, R110). -/
theorem decode_encode (i : Instr) : decode (encode i) = .ok i := by
  cases i
  case calculate | init | write | read | writeRead | classify =>
    simp [encode, decode, decodeDescriptor, opKnown, decodeOperation]
  case statusRd | dataRd | ctrlWr | timingWr | statusWr | clearWr | dataWr | delayWr => rfl

/-- A request that decodes is well formed, and is the encoding of its instruction. -/
theorem wellFormed_and_encode_of_decode {e : Encoded} {i : Instr} (h : decode e = .ok i) :
    e.wellFormed = true ∧ encode i = e := by
  have unique {j : Instr} (hj : decode e = .ok j) : j = i := by simpa [h] using hj.symm
  cases e with
  | cmd d =>
    rcases decode_cmd_by_checks d with ⟨_, hd⟩ | ⟨_, _, hd⟩ | ⟨hwf, j, hd, he⟩
    · simp [hd] at h
    · simp [hd] at h
    · exact ⟨hwf, unique hd ▸ he⟩
  | port p =>
    obtain ⟨hok, hbad⟩ := Proofs.portAccessDecodesOrIsUnknown p
    cases hwf : p.wellFormed with
    | false => simp [hbad hwf] at h
    | true =>
      obtain ⟨j, hd, he⟩ := hok hwf
      exact ⟨hwf, unique hd ▸ he⟩

end Sys2Proof

namespace Sys2Proof.Proofs

open Sys2Proof Sys2Proof.Machine

/-- Settles O1: constructor by constructor the decoder undoes the encoder, and only well-formed requests decode. -/
theorem decodeOfEncode : Obligations.DecodeOfEncode := fun i =>
  ⟨(wellFormed_and_encode_of_decode (decode_encode i)).1, decode_encode i⟩

/-- Settles O2: every check of the decoder that a request passes leaves only the bits the encoder writes. -/
theorem encodeOfDecode : Obligations.EncodeOfDecode := fun _ _ h => (wellFormed_and_encode_of_decode h).2

/-- Settles O3: the decoder answers by the first check that fails, and each of the clauses makes one check the first. -/
theorem descriptorChecksInOrder : Obligations.DescriptorChecksInOrder := by
  intro d
  rcases decode_cmd_by_checks d with ⟨hop, hd⟩ | ⟨hop, hwf, hd⟩ | ⟨hwf, i, hd, _⟩
  · have hwf : d.wellFormed = false := by simp [Descriptor.wellFormed, hop]
    simp [hop, hwf, hd]
  · simp [hop, hwf, hd]
  · have hall := hwf
    simp only [Descriptor.wellFormed, Bool.and_eq_true] at hall
    obtain ⟨⟨⟨hop, hres⟩, haddr⟩, hoperands⟩ := hall
    simp [hop, hres, haddr, hoperands, hd]

/-- Settles O5, word by word. -/
theorem specWordsDecode : Obligations.SpecWordsDecode := by
  unfold Obligations.SpecWordsDecode
  decide

/-- Settles O10: the step at IDLE with a request that does not decode is the refusal. -/
theorem malformedDescriptorRefused : Obligations.MalformedDescriptorRefused :=
  fun _ _ _ _ hm hp hq hd => step_idle_reject hm hp hq hd

end Sys2Proof.Proofs
end

section
/-! A whole WRITE_READ (30_encoding R112): what each phase of a transaction does while no abort comes and every poll succeeds at its
first answer, from the operation's dispatch to its return. -/

namespace Sys2Proof.Machine

/-- A STATUS answer with no abort and the awaited flag set. -/
def ReadyAnswer (flag : Word → Bool) (v : Word) : Prop := classify v = none ∧ flag v = true

/-- A poll that reads no abort and its awaited flag goes on (R193). -/
theorem poll_of_ready {flag : Word → Bool} {v : Word} (hv : ReadyAnswer flag v) (ready stay : ControlPoint) (t : State) :
    poll v (flag v) ready stay t = { t with pc := ready } := by
  obtain ⟨hc, hf⟩ := hv
  simp [poll, hc, hf]

/-! ### Single steps, each read with a listed answer -/

section
variable {s : State} {v : Word} {rest : List Word} (hm : s.mode = .running)
include hm

/-- ADDR_WAIT goes on once no addressing sequence is in flight (R184). -/
theorem step_addrWait_ready (hp : s.pc = .addrWait) (he : s.env = v :: rest) (hv : flagStartPending v = false) :
    step s = .next { s with
      hist := s.hist ++ [.rd statusOff v], env := rest, draws := s.draws + 1, pc := .addrProg } := by
  simp [step_access (i := .statusRd) hm (by rw [hp]; rfl), exec, execStatusRd, hp, draw_of_env_cons he,
    portRead_of_env_cons _ he, hv]

/-- The START of a write phase (R185). -/
theorem step_startWrite (hp : s.pc = .addrProg) (ho : s.op = some .write ∨ s.op = some .writeRead) :
    step s = .next { portWrite ctrlOff (startWriteWord s.addr s.outLen) s with pc := .txPoll } := by
  rw [step_access (i := .ctrlWr) hm (by rw [hp]; rfl)]
  rcases ho with ho | ho <;> simp [exec, execCtrlWr, ctrlOperand, hp, ho]

/-- TX_POLL goes on when the transmit register is empty (R186). -/
theorem step_txPoll_ready (hp : s.pc = .txPoll) (he : s.env = v :: rest) (hv : ReadyAnswer flagTxe v) :
    step s = .next { s with
      hist := s.hist ++ [.rd statusOff v], env := rest, draws := s.draws + 1, pc := .txData } := by
  simp [step_access (i := .statusRd) hm (by rw [hp]; rfl), exec, execStatusRd, hp, draw_of_env_cons he,
    portRead_of_env_cons _ he, poll_of_ready hv]

/-- TX_DATA sends one byte and counts it (R187). -/
theorem step_txData (hp : s.pc = .txData) (hi : s.i < s.outLen) :
    step s = .next { portWrite dataOff (dataWord (memRead s.outBuf s.i)) s with
      i := s.i + 1, pc := if s.i + 1 = s.outLen then .tcPoll else .txPoll } := by
  simp [step_access (i := .dataWr) hm (by rw [hp]; rfl), exec, execDataWr, hp, hi]

/-- TC_POLL of a WRITE_READ goes on to the repeated START when the transfer is complete (R188). -/
theorem step_tcPoll_restart (hp : s.pc = .tcPoll) (ho : s.op = some .writeRead) (he : s.env = v :: rest)
    (hv : ReadyAnswer flagTc v) :
    step s = .next { s with
      hist := s.hist ++ [.rd statusOff v], env := rest, draws := s.draws + 1, pc := .restartProg } := by
  simp [step_access (i := .statusRd) hm (by rw [hp]; rfl), exec, execStatusRd, hp, ho, draw_of_env_cons he,
    portRead_of_env_cons _ he, poll_of_ready hv]

/-- The repeated START of a read phase (R190). -/
theorem step_restartProg (hp : s.pc = .restartProg) :
    step s = .next { portWrite ctrlOff (startReadWord s.addr s.inLen) s with pc := .rxPoll } := by
  simp [step_access (i := .ctrlWr) hm (by rw [hp]; rfl), exec, execCtrlWr, ctrlOperand, hp]

/-- RX_POLL goes on when a byte has come (R191). -/
theorem step_rxPoll_ready (hp : s.pc = .rxPoll) (he : s.env = v :: rest) (hv : ReadyAnswer flagRxne v) :
    step s = .next { s with
      hist := s.hist ++ [.rd statusOff v], env := rest, draws := s.draws + 1, pc := .rxData } := by
  simp [step_access (i := .statusRd) hm (by rw [hp]; rfl), exec, execStatusRd, hp, draw_of_env_cons he,
    portRead_of_env_cons _ he, poll_of_ready hv]

/-- RX_DATA stores one byte and counts it, and completes after the last (R192). -/
theorem step_rxData (hp : s.pc = .rxData) (hj : s.j < s.inLen) (he : s.env = v :: rest) :
    step s = .next { s with
      hist := s.hist ++ [.rd dataOff v], env := rest, draws := s.draws + 1
      inBuf := memWrite s.inBuf s.j (dataByte v), j := s.j + 1
      pc := if s.j + 1 = s.inLen then .done else .rxPoll
      result := if s.j + 1 = s.inLen then some .ok else s.result } := by
  rw [step_access (i := .dataRd) hm (by rw [hp]; rfl)]
  by_cases hl : s.j + 1 = s.inLen <;>
    simp [exec, execDataRd, hp, hj, hl, complete, draw_of_env_cons he, portRead_of_env_cons _ he]

end

/-! ### The bytes sent -/

/-- The events of the bytes of `buf` sent at the indexes `ks`: the poll, answered `w k`, and the DATA write (R186, R187). -/
def sendEvents (buf : Memory) (w : Nat → Word) (ks : List Nat) : List PortEvent :=
  ks.flatMap fun k => [.rd statusOff (w k), .wr dataOff (dataWord (memRead buf k))]

/-- One byte sent. -/
theorem runsTo_sendByte {s : State} {v : Word} {rest : List Word} (hm : s.mode = .running) (hp : s.pc = .txPoll)
    (hi : s.i < s.outLen) (he : s.env = v :: rest) (hv : ReadyAnswer flagTxe v) :
    runsTo 2 s { s with
      pc := if s.i + 1 = s.outLen then .tcPoll else .txPoll, i := s.i + 1
      hist := s.hist ++ [.rd statusOff v, .wr dataOff (dataWord (memRead s.outBuf s.i))]
      env := rest, draws := s.draws + 1 } := by
  simpa [portWrite] using runsTo_succ (step_txPoll_ready hm hp he hv) (runsTo_one (step_txData hm rfl hi))

/-- All bytes from the current index on sent, one poll each (R200). -/
theorem runsTo_send (w : Nat → Word) {rest : List Word} {n : Nat} {s : State} (hm : s.mode = .running) (hp : s.pc = .txPoll)
    (hn : 0 < n) (hi : s.i + n = s.outLen) (he : s.env = (List.range' s.i n).map w ++ rest)
    (hw : ∀ k < s.outLen, ReadyAnswer flagTxe (w k)) :
    runsTo (2 * n) s { s with
      pc := .tcPoll, i := s.outLen, hist := s.hist ++ sendEvents s.outBuf w (List.range' s.i n), env := rest
      draws := s.draws + n } := by
  induction n generalizing s with
  | zero => omega
  | succ n ih =>
    have hbyte := runsTo_sendByte hm hp (by omega) he (hw s.i (by omega))
    rcases Nat.eq_zero_or_pos n with rfl | hpos
    · simpa [hi, sendEvents] using hbyte
    · rw [if_neg (by omega)] at hbyte
      have hrun := runsTo_add hbyte (ih hm rfl hpos (by dsimp only; omega) rfl hw)
      simpa [sendEvents, List.range'_succ, Nat.mul_add, Nat.add_comm, Nat.add_left_comm] using hrun

/-! ### The bytes received -/

/-- The bytes `d k` stored at the indexes `ks` (R192). -/
def storeBytes (d : Nat → Word) (ks : List Nat) (m : Memory) : Memory :=
  ks.foldl (fun m k => memWrite m k (dataByte (d k))) m

/-- A buffer after bytes are stored: the stored byte where one was stored, the old one elsewhere. -/
theorem memRead_storeBytes (d : Nat → Word) {ks : List Nat} {m : Memory} (hm : m.wf = true) (a : Nat) :
    memRead (storeBytes d ks m) a = if a ∈ ks then dataByte (d a) else memRead m a := by
  induction ks generalizing m with
  | nil => rfl
  | cons k ks ih =>
    have hstep : memRead (storeBytes d (k :: ks) m) a = _ := ih (memWrite_wf k (dataByte (d k)) hm)
    rw [hstep]
    by_cases hk : a = k
    · simp [hk, memRead_memWrite_same k _ hm]
    · simp [hk, memRead_memWrite_other m _ hk]

/-- The events of the bytes received at the indexes `ks`: the poll, answered `x k`, and the DATA read, answered `d k` (R191,
R192). -/
def receiveEvents (x d : Nat → Word) (ks : List Nat) : List PortEvent :=
  ks.flatMap fun k => [.rd statusOff (x k), .rd dataOff (d k)]

/-- One byte received. -/
theorem runsTo_receiveByte {s : State} {v b : Word} {rest : List Word} (hm : s.mode = .running) (hp : s.pc = .rxPoll)
    (hj : s.j < s.inLen) (he : s.env = v :: b :: rest) (hv : ReadyAnswer flagRxne v) :
    runsTo 2 s { s with
      pc := if s.j + 1 = s.inLen then .done else .rxPoll
      result := if s.j + 1 = s.inLen then some .ok else s.result
      j := s.j + 1, inBuf := memWrite s.inBuf s.j (dataByte b)
      hist := s.hist ++ [.rd statusOff v, .rd dataOff b], env := rest, draws := s.draws + 2 } := by
  simpa using runsTo_succ (step_rxPoll_ready hm hp he hv) (runsTo_one (step_rxData hm rfl hj rfl))

/-- All bytes from the current index on received, one poll each; the last completes the operation (R201). -/
theorem runsTo_receive (x d : Nat → Word) {rest : List Word} {n : Nat} {s : State} (hm : s.mode = .running)
    (hp : s.pc = .rxPoll) (hn : 0 < n) (hj : s.j + n = s.inLen)
    (he : s.env = ((List.range' s.j n).flatMap fun k => [x k, d k]) ++ rest)
    (hx : ∀ k < s.inLen, ReadyAnswer flagRxne (x k)) :
    runsTo (2 * n) s { s with
      pc := .done, result := some .ok, j := s.inLen, inBuf := storeBytes d (List.range' s.j n) s.inBuf
      hist := s.hist ++ receiveEvents x d (List.range' s.j n), env := rest, draws := s.draws + 2 * n } := by
  induction n generalizing s with
  | zero => omega
  | succ n ih =>
    have hbyte := runsTo_receiveByte hm hp (by omega) he (hx s.j (by omega))
    rcases Nat.eq_zero_or_pos n with rfl | hpos
    · simpa [hj, receiveEvents, storeBytes] using hbyte
    · rw [if_neg (by omega), if_neg (by omega)] at hbyte
      have hrun := runsTo_add hbyte (ih hm rfl hpos (by dsimp only; omega) rfl hx)
      simpa [receiveEvents, storeBytes, List.range'_succ, Nat.mul_add, Nat.add_assoc, Nat.add_comm, Nat.add_left_comm]
        using hrun

/-! ### Whole phases -/

/-- At IDLE, configured, the host's next request is a transaction with lengths in range (R180 to R182). -/
structure Asked (s : State) (q : Request) (rest : List Request) (i : Instr) (op : Op) (a : BitVec 7) (m n : Nat) : Prop where
  mode : s.mode = .running
  pc : s.pc = .idle
  inbox : s.inbox = q :: rest
  decoded : decode (.cmd q.descriptor) = .ok i
  transaction : transactionOf i = some (op, a, m, n)
  configured : s.cfg ≠ none
  lengths : lengthsOk op m n = true

section
variable {s : State} {q : Request} {rest : List Request} {i : Instr} {op : Op} {a : BitVec 7} {m n : Nat} {v : Word}
  {more : List Word}

/-- From IDLE through the address wait: the operation is set up and its one STATUS read is made (R183, R184). -/
theorem runsTo_addrProg (h : Asked s q rest i op a m n) (he : s.env = v :: more) (hv : flagStartPending v = false) :
    runsTo 2 s { accept i q rest s with
      op := some op, addr := a, outLen := m, inLen := n, i := 0, j := 0, err := none, pc := .addrProg
      hist := s.hist ++ [.rd statusOff v], env := more, draws := s.draws + 1 } :=
  runsTo_succ (step_setup h.mode h.pc h.inbox h.decoded h.transaction h.configured h.lengths)
    (runsTo_one (step_addrWait_ready h.mode rfl he hv))

/-- The write phase, from IDLE to TC_POLL: the address wait, the START, and every byte of the buffer handed over (R200, R202). -/
theorem runsTo_writePhase (w : Nat → Word) (h : Asked s q rest i op a m n) (ho : op = .write ∨ op = .writeRead) (hpos : 0 < m)
    (he : s.env = v :: ((List.range m).map w ++ more)) (hv : flagStartPending v = false)
    (hw : ∀ k < m, ReadyAnswer flagTxe (w k)) :
    runsTo (2 * m + 3) s { accept i q rest s with
      op := some op, addr := a, outLen := m, inLen := n, i := m, j := 0, err := none, pc := .tcPoll
      hist := s.hist ++ ([.rd statusOff v, .wr ctrlOff (startWriteWord a m)] ++
        sendEvents (accept i q rest s).outBuf w (List.range m))
      env := more, draws := s.draws + (m + 1) } := by
  rw [List.range_eq_range'] at he
  have hrun := runsTo_add (runsTo_addrProg h he hv) (runsTo_succ (step_startWrite h.mode rfl (by simpa using ho))
    (runsTo_send w h.mode rfl hpos (Nat.zero_add m) rfl hw))
  rw [show 2 * m + 3 = 2 + (2 * m + 1) by omega]
  simpa [portWrite, List.range_eq_range', Nat.add_assoc, Nat.add_comm 1] using hrun

/-- The read phase, from RX_POLL back to IDLE: every byte, and the buffer handed back with the result (R201, R202, R267). -/
theorem runsTo_readPhase (x d : Nat → Word) (hm : s.mode = .running) (hp : s.pc = .rxPoll) (ho : s.op = some op)
    (hin : op.hasIn = true) (hj : s.j = 0) (hn : s.inLen = n) (hpos : 0 < n)
    (he : s.env = ((List.range n).flatMap fun k => [x k, d k]) ++ more) (hx : ∀ k < n, ReadyAnswer flagRxne (x k)) :
    runsTo (2 * n + 1) s { s with
      op := none, err := none, params := none, pc := .idle, result := some .ok, j := n
      inBuf := storeBytes d (List.range n) s.inBuf
      delivered := s.delivered ++ [⟨.ok, some (storeBytes d (List.range n) s.inBuf)⟩]
      hist := s.hist ++ receiveEvents x d (List.range n), env := more, draws := s.draws + 2 * n } := by
  subst hn
  rw [List.range_eq_range'] at he
  have hrun := runsTo_add (runsTo_receive x d hm hp hpos (by omega) (by rw [hj]; exact he) hx) (runsTo_one (step_done hm rfl))
  simpa [finish, replies, returnedBuffer, ho, hin, hj, List.range_eq_range'] using hrun

/-- A whole WRITE_READ: the two phases joined by the completion poll and the repeated START (R112, R202). -/
theorem runsTo_writeRead (w x d : Nat → Word) {c : Word} (h : Asked s q rest i .writeRead a m n) (hposm : 0 < m)
    (hposn : 0 < n)
    (he : s.env = v :: ((List.range m).map w ++ c :: (((List.range n).flatMap fun k => [x k, d k]) ++ more)))
    (hv : flagStartPending v = false) (hw : ∀ k < m, ReadyAnswer flagTxe (w k)) (hc : ReadyAnswer flagTc c)
    (hx : ∀ k < n, ReadyAnswer flagRxne (x k)) :
    runsTo (2 * m + 2 * n + 6) s { accept i q rest s with
      op := none, addr := a, outLen := m, inLen := n, i := m, j := n, err := none, params := none, result := some .ok
      inBuf := storeBytes d (List.range n) (accept i q rest s).inBuf
      delivered := s.delivered ++ [⟨.ok, some (storeBytes d (List.range n) (accept i q rest s).inBuf)⟩]
      hist := s.hist ++ ([.rd statusOff v, .wr ctrlOff (startWriteWord a m)] ++
        sendEvents (accept i q rest s).outBuf w (List.range m) ++
        [.rd statusOff c, .wr ctrlOff (startReadWord a n)] ++ receiveEvents x d (List.range n))
      env := more, draws := s.draws + (m + 2 * n + 2) } := by
  have hrun := runsTo_add (runsTo_writePhase w h (.inr rfl) hposm he hv hw)
    (runsTo_succ (step_tcPoll_restart h.mode rfl rfl rfl hc) (runsTo_succ (step_restartProg h.mode rfl)
      (runsTo_readPhase x d h.mode rfl rfl rfl rfl rfl hposn rfl hx)))
  rw [show 2 * m + 2 * n + 6 = 2 * m + 3 + (2 * n + 1 + 1 + 1) by omega,
    show s.draws + (m + 2 * n + 2) = s.draws + (m + 1) + 1 + 2 * n by omega]
  simpa [portWrite, h.pc] using hrun

end

theorem dataWord_eq_ofNat (b : Byte) : dataWord b = BitVec.ofNat 32 b.toNat := by simp [dataWord]

theorem dataByte_toNat (v : Word) : (dataByte v).toNat = v.toNat % 256 := by simp [dataByte, byteLane]

end Sys2Proof.Machine

namespace Sys2Proof.Proofs

open Sys2Proof Sys2Proof.Machine

/-- Settles O53: the descriptor is the encoding of its instruction, so the run is that of the two phases. -/
theorem writeReadRunsToOk : Obligations.WriteReadRunsToOk := by
  intro s addr m n ob ib rest a0 c w x d more hm hp hcfg hm1 hm2 hn1 hn2 hwf hq he ha0 hw hc hct hx
  have hmw : (BitVec.ofNat 32 m).toNat = m := Nat.mod_eq_of_lt (by omega)
  have hnw : (BitVec.ofNat 32 n).toNat = n := Nat.mod_eq_of_lt (by omega)
  have hasked : Asked s _ rest (.writeRead addr (BitVec.ofNat 32 m) (BitVec.ofNat 32 n)) .writeRead addr m n :=
    { mode := hm, pc := hp, inbox := hq, configured := hcfg
      decoded := decode_encode (.writeRead addr (BitVec.ofNat 32 m) (BitVec.ofNat 32 n))
      transaction := by simp only [transactionOf, hmw, hnw]
      lengths := by simp [lengthsOk, (lengthOk_iff m).mpr ⟨hm1, hm2⟩, (lengthOk_iff n).mpr ⟨hn1, hn2⟩] }
  refine ⟨_, runsTo_writeRead w x d hasked hm1 hn1 he ha0 hw ⟨hc, hct⟩ hx, hm, hp, rfl, rfl, rfl, rfl, rfl, ?_, ?_, ?_⟩
  · intro k hk
    simp [takesIn, memRead_storeBytes d hwf, hk, dataByte_toNat]
  · intro k hk
    simp [takesIn, memRead_storeBytes d hwf, hk]
  · obtain ⟨hstart, -⟩ := start_words addr m hm2
    obtain ⟨-, hrestart⟩ := start_words addr n hn2
    simp [sendEvents, receiveEvents, takesOut, hstart, hrestart, dataWord_eq_ofNat, statusOff, ctrlOff, dataOff]

end Sys2Proof.Proofs
end

section
/-! Control (41_timing_calculator): the edges along which a step moves control (R203). -/

namespace Sys2Proof.Machine

/-- Every move follows an edge of the table (R203, with R150 to R152 and R241). -/
theorem Move.edge {s t : State} (h : Move s t) : edge s.pc t.pc = true := by
  cases h
  case pollAbort op e hp hf hc => rcases hp with hp | hp | hp <;> simp [hp, Machine.edge]
  case pollStay op p hp hk hf hc hphase hv => rcases hk with rfl | rfl | rfl <;> simp [hp, Machine.edge]
  case send op hp hf ho hi hj => by_cases hl : s.i + 1 = s.outLen <;> simp [hp, hl, Machine.edge]
  case flushRead op hp hf he => cases flagTxis (draw s) <;> simp [hp, Machine.edge]
  case calculate | initOk | initFail | classify | unconfigured | setup | badLength | reject | finish | timing | delay |
      addressStay | addressGo | startWrite | startRead | sendReady | sentAll | sentFirst | stop | restart | receiveReady |
      receiveMore | receiveLast | clearError | clearNack | flushDummy | flushTxe =>
    simp [‹s.pc = _›, Machine.edge]

end Sys2Proof.Machine

namespace Sys2Proof.Proofs

open Sys2Proof Sys2Proof.Machine

/-- Settles O17: from the invariant every step is a move, and every move follows an edge. -/
theorem onlyListedTransitions : Obligations.OnlyListedTransitions := fun _ _ hinv hs => (move_of_step hinv hs).edge

end Sys2Proof.Proofs
end

section
/-! The calculator (41_timing_calculator): its guards, and what each regime answers by the ratio, over the naturals. -/

namespace Sys2Proof.Machine

/-! ### The guards -/

section
variable {clk f : Word}

/-- The first guard: a frequency above the largest accepted one (R141). -/
theorem timingCalc_tooFast (hf : 1000000 < f.toNat) : timingCalc clk f = .configErr .frequencyTooHigh := by
  rw [timingCalc, timingCalcInt, if_pos (by simp; omega)]

/-- The second guard: a frequency of zero (R141; the spec's own D12). -/
theorem timingCalc_zero (hf : f.toNat = 0) : timingCalc clk f = .defect .zeroTargetFrequency := by
  rw [timingCalc, timingCalcInt, if_neg (by simp; omega), if_pos (by omega)]

/-- The third guard: a ratio below the least one (R142). -/
theorem timingCalc_ratioTooSmall (hpos : 0 < f.toNat) (hmax : f.toNat ≤ 1000000) (hr : clk.toNat / f.toNat < 4) :
    timingCalc clk f = .configErr .ratioOutOfRange := by
  rw [timingCalc, timingCalcInt, if_neg (by simp; omega), if_neg (by omega), if_pos (by simp; omega)]

end

/-! ### Post-processing -/

/-- Fields in range pass the checks and are stored as they are, the delays raised to their minimums (R147). -/
theorem postProcess_ok {r : RawTiming} (hpre : 0 ≤ r.prescaler ∧ r.prescaler < 16) (hlow : 0 ≤ r.low ∧ r.low ≤ 255)
    (hhigh : 0 ≤ r.high ∧ r.high ≤ 255) (hsetup : r.setup ≤ 255) (hhold : r.hold ≤ 255) :
    ∃ p, postProcess r = .ok p ∧ (p.prescaler.toNat : Int) = r.prescaler ∧ (p.lowPeriod.toNat : Int) = r.low ∧
      (p.highPeriod.toNat : Int) = r.high ∧ (p.setupDelay.toNat : Int) = max r.setup 2 ∧
      (p.holdDelay.toNat : Int) = max r.hold 4 := by
  have hok : postProcess r = .ok r.clamped.narrow := by
    rw [postProcess, checkFields, if_neg, if_neg] <;> simp only [RawTiming.clamped, Config.setupMin, Config.holdMin] <;> omega
  obtain ⟨-, hs, hh⟩ := postProcess_ok_delays hok
  exact ⟨_, hok, ofInt4_toNat _ hpre.1 hpre.2, ofInt8_toNat r.low hlow.1 (by omega),
    ofInt8_toNat r.high hhigh.1 (by omega), hs, hh⟩

/-- A prescaler above its field's width is found before any other fault (R147). -/
theorem postProcess_prescalerOutOfRange {r : RawTiming} (h : 16 ≤ r.prescaler) :
    postProcess r = .defect .prescalerOutOfRange := if_pos h

/-- A low period above its field's width is an overflow (R147; the spec's own D14). -/
theorem postProcess_lowOverflow {r : RawTiming} (hpre : r.prescaler < 16) (hlow : 255 < r.low) :
    postProcess r = .defect .fieldOverflow := by
  rw [postProcess, checkFields, if_neg (by simpa [RawTiming.clamped] using hpre), if_pos (.inl hlow)]

/-! ### The Standard regime -/

/-- The Standard prescaler of a natural ratio (R143). -/
theorem standardPrescaler_natCast {ratio : Nat} (hr : 4 ≤ ratio) :
    standardPrescaler ratio = (min ((ratio + 511) / 512 - 1) 15 : Nat) := by
  simp only [standardPrescaler, clampInt, ceilDiv, Config.standardTicks]
  omega

/-- The Standard half period is at least 1, and fits its field exactly up to the ratio 8223 (R143, R149 (a)). -/
theorem standardHalf_bounds {ratio : Nat} (hr : 4 ≤ ratio) :
    1 ≤ standardHalf ratio ∧ (standardHalf ratio < 256 ↔ ratio ≤ 8223) := by
  have hpre := standardPrescaler_natCast hr
  obtain ⟨a, ha⟩ : ∃ a, a = standardPrescaler ratio + 1 := ⟨_, rfl⟩
  have hpos : 0 < a := by omega
  have hleast : 4 ≤ (ratio : Int) / a := (Int.le_ediv_iff_mul_le hpos).mpr (by omega)
  have hquot : (ratio : Int) / a < 514 ↔ (ratio : Int) < 514 * a := Int.ediv_lt_iff_lt_mul hpos
  rw [standardHalf, ← ha]
  omega

/-- The Standard regime's periods and delays, in naturals but for the hold delay's -1 (R143, R144). -/
theorem standardRaw_natCast (clk : Nat) {ratio a : Nat} (ha : standardPrescaler ratio + 1 = a)
    (hhalf : 0 ≤ standardHalf ratio) :
    (standardRaw clk ratio).low = ((ratio / a - 2) / 2 : Nat) ∧ (standardRaw clk ratio).high = ((ratio / a - 2) / 2 : Nat) ∧
      (standardRaw clk ratio).setup = (clk / 2000000 / a : Nat) ∧
      (standardRaw clk ratio).hold = (clk / 800000 / a : Nat) - 1 := by
  simp only [standardRaw, standardHalf, ha] at hhalf ⊢
  push_cast
  omega

/-- The Standard regime decides by its half period (R143, R148). -/
theorem timingCalc_standard {clk f : Word} {ratio : Nat} (hpos : 1 ≤ f.toNat) (hf : f.toNat ≤ 100000)
    (hratio : ratio = clk.toNat / f.toNat) (hr : 4 ≤ ratio) :
    timingCalc clk f =
      if standardHalf ratio ≥ 256 then .configErr .frequencyTooHigh else postProcess (standardRaw clk.toNat ratio) := by
  rw [timingCalc_eq_byRatio clk f ratio hpos (by omega) hratio hr, timingByRatio, if_pos (by simp; omega)]

/-- An Ok of the Standard regime, field by field (R143, R144, R147; the spec's own D13). -/
theorem timingCalc_standard_ok {clk f : Word} {ratio : Nat} (hpos : 1 ≤ f.toNat) (hf : f.toNat ≤ 100000)
    (hratio : ratio = clk.toNat / f.toNat) (hr : 4 ≤ ratio) (hr' : ratio ≤ 8223) :
    ∃ (p : TimingParameters) (a : Nat), timingCalc clk f = .ok p ∧
      a = p.prescaler.toNat + 1 ∧ p.prescaler.toNat = min ((ratio + 511) / 512 - 1) 15 ∧
      p.highPeriod.toNat = (ratio / a - 2) / 2 ∧ p.lowPeriod = p.highPeriod ∧
      p.setupDelay.toNat = max (clk.toNat / 2000000 / a) 2 ∧
      p.holdDelay.toNat + 1 = max (clk.toNat / 800000 / a) 5 := by
  obtain ⟨hleast, hmost⟩ := standardHalf_bounds hr
  have hhalf := hmost.mpr hr'
  have hpre := standardPrescaler_natCast hr
  obtain ⟨hsetup, hhold⟩ := standardRaw_delays hhalf (clock_lt_int hpos hratio (by omega))
  obtain ⟨p, hok, epre, elow, ehigh, esetup, ehold⟩ := postProcess_ok (r := standardRaw clk.toNat ratio)
    (by simp only [standardRaw]; omega) (by simp only [standardRaw]; omega) (by simp only [standardRaw]; omega)
    (by omega) (by omega)
  obtain ⟨a, ha⟩ : ∃ a, a = p.prescaler.toNat + 1 := ⟨_, rfl⟩
  have hdiv : standardPrescaler ratio + 1 = (a : Int) := by
    simp only [standardRaw] at epre
    omega
  refine ⟨p, a, by rw [timingCalc_standard hpos hf hratio hr, if_neg (by omega), hok], ha, by omega, ?_⟩
  obtain ⟨nlow, nhigh, nsetup, nhold⟩ := standardRaw_natCast clk.toNat hdiv (by omega)
  exact ⟨by omega, BitVec.eq_of_toNat_eq (by omega), by omega, by omega⟩

/-! ### The Fast and Fast-plus regimes -/

/-- The Fast and Fast-plus high period is no negative number (R145). -/
theorem fastHigh_nonneg {ratio : Int} (hr : 4 ≤ ratio) : 0 ≤ fastHigh ratio := by
  obtain ⟨hpre, hle, -⟩ := fastPrescaler_bounds hr
  have hleast : 3 ≤ ratio / (fastPrescaler ratio + 1) := (Int.le_ediv_iff_mul_le (by omega)).mpr (by omega)
  unfold fastHigh
  omega

/-- The Fast and Fast-plus regimes' periods and delays, in naturals but for the hold delay's -1 (R145, R146). -/
theorem fastRaw_natCast (clk f : Nat) {ratio a : Nat} (ha : fastPrescaler ratio + 1 = a) (hhigh : 0 ≤ fastHigh ratio) :
    (fastRaw clk f ratio).low = (2 * ((ratio / a - 3) / 3 + 1) : Nat) ∧
      (fastRaw clk f ratio).high = ((ratio / a - 3) / 3 : Nat) ∧
      (fastRaw clk f ratio).setup = (if 400000 < f then 0 else clk / 8000000 / a : Nat) ∧
      (fastRaw clk f ratio).hold = (clk / (if 400000 < f then 4000000 else 2000000) / a : Nat) - 1 := by
  simp only [fastRaw, fastHigh, ha, Config.fFast] at hhigh ⊢
  by_cases hplus : 400000 < f
  · simp only [if_pos hplus, if_pos (show (f : Int) > 400000 by omega)]
    exact ⟨by omega, by omega, by simp, by simp⟩
  · simp only [if_neg hplus, if_neg (show ¬ (f : Int) > 400000 by omega)]
    exact ⟨by omega, by omega, by simp, by simp⟩

section
variable {clk f : Word} {ratio : Nat} (hmin : 100000 < f.toNat) (hmax : f.toNat ≤ 1000000)
  (hratio : ratio = clk.toNat / f.toNat) (hr : 4 ≤ ratio)
include hmin hmax hratio hr

/-- The Fast and Fast-plus regimes answer what post-processing answers (R145, R146, R148). -/
theorem timingCalc_fast : timingCalc clk f = postProcess (fastRaw clk.toNat f.toNat ratio) := by
  rw [timingCalc_eq_byRatio clk f ratio (by omega) hmax hratio hr, timingByRatio, if_neg (by simp; omega)]

/-- An Ok of the Fast and Fast-plus regimes, field by field (R145 to R147; the spec's own D13). -/
theorem timingCalc_fast_ok (hr' : ratio ≤ 6144) (hmod : ratio % 384 ≠ 0) :
    ∃ (p : TimingParameters) (a : Nat), timingCalc clk f = .ok p ∧
      a = p.prescaler.toNat + 1 ∧ p.prescaler.toNat = (ratio - 1) / 384 ∧
      p.highPeriod.toNat = (ratio / a - 3) / 3 ∧ p.lowPeriod.toNat = 2 * (p.highPeriod.toNat + 1) ∧
      p.setupDelay.toNat = (if 400000 < f.toNat then 2 else max (clk.toNat / 8000000 / a) 2) ∧
      p.holdDelay.toNat + 1 = max (clk.toNat / (if 400000 < f.toNat then 4000000 else 2000000) / a) 5 := by
  obtain ⟨hpre, hle, -⟩ := fastPrescaler_bounds (ratio := ratio) (by omega)
  have hhigh := fastHigh_nonneg (ratio := ratio) (by omega)
  obtain ⟨hhigh', -, hfull⟩ := fastRaw_periods (clk := clk.toNat) (f := f.toNat) (ratio := ratio) (by omega)
  obtain ⟨hsetup, hhold, -⟩ := fastRaw_delays (clk := clk.toNat) (f := f.toNat) (ratio := ratio) (by omega) (by omega)
    fun _ hb => clock_lt_int (by omega) hratio hb
  have hlow : (fastRaw clk.toNat f.toNat ratio).low ≤ 255 := by
    by_contra h
    have := hfull.mp (by omega)
    omega
  obtain ⟨p, hok, epre, elow, ehigh, esetup, ehold⟩ := postProcess_ok (r := fastRaw clk.toNat f.toNat ratio)
    (by simp only [fastRaw]; omega) (by simp only [fastRaw] at hlow ⊢; omega) (by simp only [fastRaw] at hhigh' ⊢; omega)
    (by omega) (by omega)
  obtain ⟨a, ha⟩ : ∃ a, a = p.prescaler.toNat + 1 := ⟨_, rfl⟩
  have hdiv : fastPrescaler ratio + 1 = (a : Int) := by
    simp only [fastRaw] at epre
    omega
  have hdef : fastPrescaler ratio = ((ratio : Int) - 1) / 384 := rfl
  refine ⟨p, a, by rw [timingCalc_fast hmin hmax hratio hr, hok], ha, by omega, ?_⟩
  obtain ⟨nlow, nhigh, nsetup, nhold⟩ := fastRaw_natCast clk.toNat f.toNat hdiv hhigh
  by_cases hplus : 400000 < f.toNat
  · simp only [if_pos hplus] at nsetup nhold ⊢
    omega
  · simp only [if_neg hplus] at nsetup nhold ⊢
    omega

/-- A ratio above 6144 asks for a prescaler of 16 or more (R145, R147). -/
theorem timingCalc_fast_prescalerOutOfRange (hr' : 6145 ≤ ratio) : timingCalc clk f = .defect .prescalerOutOfRange := by
  obtain ⟨-, -, hle⟩ := fastPrescaler_bounds (ratio := ratio) (by omega)
  rw [timingCalc_fast hmin hmax hratio hr]
  exact postProcess_prescalerOutOfRange (by simp only [fastRaw]; omega)

/-- A ratio up to 6144 that is a multiple of 384 gives a low period of 256 (R145, R147; the spec's own D14). -/
theorem timingCalc_fast_fieldOverflow (hr' : ratio ≤ 6144) (hmod : ratio % 384 = 0) :
    timingCalc clk f = .defect .fieldOverflow := by
  obtain ⟨-, hle, hge⟩ := fastPrescaler_bounds (ratio := ratio) (by omega)
  obtain ⟨-, -, hfull⟩ := fastRaw_periods (clk := clk.toNat) (f := f.toNat) (ratio := ratio) (by omega)
  rw [timingCalc_fast hmin hmax hratio hr]
  exact postProcess_lowOverflow (by simp only [fastRaw]; omega) (hfull.mpr (by omega))

end

end Sys2Proof.Machine

namespace Sys2Proof.Proofs

open Sys2Proof Sys2Proof.Machine

/-- Settles O24: the half period alone decides the outcome, and the delays follow from the bound it puts on the clock. -/
theorem standardRegimeOutcome : Obligations.StandardRegimeOutcome := by
  intro clk f hpos hf ratio hratio
  refine ⟨fun hr => ?_, fun hr hr' => timingCalc_standard_ok hpos hf hratio hr hr'⟩
  obtain ⟨-, hmost⟩ := standardHalf_bounds (ratio := ratio) (by omega)
  rw [timingCalc_standard hpos hf hratio (by omega), if_pos (by omega)]

/-- Settles O25: the ratio bounds the prescaler, and its multiples of 384 are where the low period overflows. -/
theorem fastRegimeOutcome : Obligations.FastRegimeOutcome := fun _ _ hmin hmax _ hratio =>
  ⟨fun hr => timingCalc_fast_prescalerOutOfRange hmin hmax hratio (by omega) hr,
    fun hr hr' hmod => timingCalc_fast_fieldOverflow hmin hmax hratio hr hr' hmod,
    fun hr hr' hmod => timingCalc_fast_ok hmin hmax hratio hr hr' hmod⟩

/-- Settles O23: one guard after the other. -/
theorem frequencyAndRatioGuards : Obligations.FrequencyAndRatioGuards :=
  fun _ _ => ⟨timingCalc_tooFast, timingCalc_zero, timingCalc_ratioTooSmall⟩

end Sys2Proof.Proofs
end

section
/-! CALC and INIT (41_timing_calculator): the dispatch of each, INIT's two register writes, and a whole INIT (R150 to R153). -/

namespace Sys2Proof.Machine

/-- The descriptor of CALC (R102, R104). -/
theorem decode_calculate (clk f : Word) : decode (.cmd ⟨1, clk, f⟩) = .ok (.calculate clk f) :=
  decode_encode (.calculate clk f)

/-- The descriptor of INIT (R102, R104). -/
theorem decode_init (clk f : Word) : decode (.cmd ⟨2, clk, f⟩) = .ok (.init clk f) := decode_encode (.init clk f)

/-! ### INIT, access by access -/

section
variable {clk f : Word} {p : TimingParameters} {s : State}

/-- INIT on Ok keeps the parameters and starts its writes (R151). -/
theorem exec_init_ok (s : State) (hc : timingCalc clk f = .ok p) :
    exec (.init clk f) s = .next { s with op := some .init, params := some p, pc := .initT } := by
  simp [exec, execInit, hc]

/-- INIT on any other outcome reports it (R151). -/
theorem exec_init_fail (s : State) (hc : ∀ p, timingCalc clk f ≠ .ok p) :
    exec (.init clk f) s = .next (complete (timingCalc clk f).toResult { s with op := some .init }) := by
  cases ho : timingCalc clk f with
  | ok p => exact absurd ho (hc p)
  | configErr e => simp [exec, execInit, ho, CalcOutcome.toResult]
  | defect d => simp [exec, execInit, ho, CalcOutcome.toResult]

/-- INIT's first register write (R152, R213). -/
theorem exec_timingWr_initT (hp : s.pc = .initT) (hq : s.params = some p) :
    exec .timingWr s = .next { portWrite timingOff (timingWord p) s with pc := .initD } := by
  simp [exec, execTimingWr, hp, hq]

/-- INIT's second register write, with which it completes (R152, R217). -/
theorem exec_delayWr_initD (hp : s.pc = .initD) (hq : s.params = some p) :
    exec .delayWr s =
      .next (complete (.okParams p) { portWrite delayOff (delayWord p) s with cfg := some p, params := none }) := by
  simp [exec, execDelayWr, hp, hq]

/-- INIT's writes and its return, from INIT_T to IDLE (R152, R197). -/
theorem runsTo_initWrites (hm : s.mode = .running) (hp : s.pc = .initT) (ho : s.op = some .init) (hq : s.params = some p) :
    runsTo 3 s { s with
      hist := s.hist ++ [.wr 0x10 (timingWord p), .wr 0x2C (delayWord p)], cfg := some p, result := some (.okParams p),
      delivered := s.delivered ++ [⟨.okParams p, none⟩], op := none, err := none, params := none, pc := .idle } := by
  obtain ⟨u, hu⟩ : ∃ u : State, u = { portWrite timingOff (timingWord p) s with pc := .initD } := ⟨_, rfl⟩
  have hT : step s = .next u := by rw [step_access (i := .timingWr) hm (by rw [hp]; rfl), exec_timingWr_initT hp hq, hu]
  have hmu : u.mode = .running := by simp [hu, hm]
  have hD := (step_access (i := .delayWr) hmu (by rw [hu]; rfl)).trans
    (exec_delayWr_initD (p := p) (by rw [hu]) (by simp [hu, hq]))
  have hrun := runsTo_succ hT (runsTo_succ hD (runsTo_one (step_done hmu rfl)))
  simpa [hu, finish, complete, portWrite, replies, returnedBuffer, ho, Op.hasIn, timingOff, delayOff] using hrun

end

end Sys2Proof.Machine

namespace Sys2Proof.Proofs

open Sys2Proof Sys2Proof.Machine

/-- Settles O30: INIT's dispatch, then its two writes and the return, or the return at once. -/
theorem initRunsToIdle : Obligations.InitRunsToIdle := by
  intro s clk f ob ib rest hm hp hnone hq
  have hstep := step_idle_run hm hp hq (decode_init clk f)
  refine ⟨fun p hc => ?_, fun hc => ?_⟩
  · have hrun := runsTo_succ (hstep.trans (exec_init_ok _ hc)) (runsTo_initWrites hm rfl rfl rfl)
    simpa [accept, takesOut, takesIn, ← hp, ← hnone] using hrun
  · have hrun := runsTo_succ (hstep.trans (exec_init_fail _ hc)) (runsTo_one (step_done hm rfl))
    simpa [accept, takesOut, takesIn, complete, finish, replies, returnedBuffer, Op.hasIn, ← hp, ← hnone] using hrun

/-- Settles O27: CALC completes with the calculator's outcome, whatever it is; the corner cases are the calculator's guards
and three computed outcomes (D12 to D14). -/
theorem calcResult : Obligations.CalcResult :=
  ⟨fun clk f _ => ⟨decode_calculate clk f, rfl⟩,
    fun _ => ⟨timingCalc_zero (by decide), timingCalc_tooFast (by decide)⟩,
    by decide, by decide, by decide⟩

/-- Settles O28: the calculator's outcome is Ok or it is not, and INIT's dispatch answers either. -/
theorem initDispatch : Obligations.InitDispatch := by
  intro clk f s
  refine ⟨decode_init clk f, ?_⟩
  by_cases hok : ∃ p, timingCalc clk f = .ok p
  · obtain ⟨p, hc⟩ := hok
    refine ⟨_, exec_init_ok s hc, fun p' hc' => ?_, fun hfail => absurd hc (hfail p)⟩
    obtain rfl : p = p' := by simpa [hc] using hc'
    rfl
  · have hfail : ∀ p, timingCalc clk f ≠ .ok p := fun p hc => hok ⟨p, hc⟩
    exact ⟨_, exec_init_fail s hfail, fun p hc => absurd hc (hfail p), fun _ => rfl⟩

/-- Settles O29: the two register writes at their control points. -/
theorem initWritesTimingThenDelay : Obligations.InitWritesTimingThenDelay :=
  fun _ _ hq => ⟨fun hp => exec_timingWr_initT hp hq, fun hp => exec_delayWr_initD hp hq⟩

end Sys2Proof.Proofs
end

section
/-! The transaction engine (42_transaction_engine): the dispatch and the return, what the access of each control point does, the
abort path, and a whole WRITE and a whole READ. -/

namespace Sys2Proof.Machine

/-! ### The dispatch of a transaction (R181 to R183) -/

/-- A transaction instruction starts its transaction (R180). -/
theorem exec_transaction {i : Instr} {op : Op} {a : BitVec 7} {m n : Nat} (hi : transactionOf i = some (op, a, m, n))
    (s : State) : exec i s = .next (startTransaction op a m n s) := by
  cases i <;> simp only [transactionOf, reduceCtorEq, Option.some.injEq, Prod.mk.injEq] at hi <;>
    obtain ⟨rfl, rfl, rfl, rfl⟩ := hi <;> rfl

/-- The length precondition, buffer by buffer (R182). -/
theorem lengthsOk_iff (op : Op) (m n : Nat) :
    lengthsOk op m n = true ↔ (op.hasOut = true → 1 ≤ m ∧ m ≤ 255) ∧ (op.hasIn = true → 1 ≤ n ∧ n ≤ 255) := by
  simp only [lengthsOk, ← lengthOk_iff]
  cases op.hasOut <;> cases op.hasIn <;> simp

/-- The length precondition fails on a length of 0 or above 255 (R182). -/
theorem lengthsOk_eq_false_iff (op : Op) (m n : Nat) :
    lengthsOk op m n = false ↔
      (op.hasOut = true ∧ (m = 0 ∨ 255 < m)) ∨ (op.hasIn = true ∧ (n = 0 ∨ 255 < n)) := by
  rw [Bool.eq_false_iff, ne_eq, lengthsOk_iff]
  cases op.hasOut <;> cases op.hasIn <;> simp <;> omega

section
variable {s : State} {i : Instr} {op : Op} {a : BitVec 7} {m n : Nat} (hi : transactionOf i = some (op, a, m, n))
include hi

/-- An unconfigured transaction is refused, whatever its lengths (R181). -/
theorem exec_unconfigured (hc : s.cfg = none) : exec i s = .next (refuse .notConfigured { s with op := some op }) := by
  rw [exec_transaction hi, startTransaction, if_pos hc]

/-- A configured transaction with a length out of range fails at once (R182). -/
theorem exec_badLength (hc : s.cfg ≠ none) (hl : lengthsOk op m n = false) :
    exec i s = .next (failLength { s with op := some op }) := by
  rw [exec_transaction hi, startTransaction, if_neg hc, if_neg (by simp [hl])]

/-- A configured transaction that is done with its dispatch has failed its lengths: no byte is counted and the lengths are kept
(R182, R208; log 8). -/
theorem exec_done_counts_no_byte {t : State} (hc : s.cfg ≠ none) (ht : t.pc = .done) (h : exec i s = .next t) :
    t.i = 0 ∧ t.j = 0 ∧ t.outLen = s.outLen ∧ t.inLen = s.inLen := by
  rw [exec_transaction hi] at h
  injection h with h
  subst h
  rcases startTransaction_cases op a m n s with ⟨hnone, _⟩ | ⟨_, _, h⟩ | ⟨_, _, h⟩
  · exact absurd hnone hc
  · simp [h] at ht
  · simp [h]

end

/-! ### The return (R197) -/

/-- The host gets the input buffer back from the two operations that have one (R267). -/
theorem returnedBuffer_of_op {s : State} {op : Op} (ho : s.op = some op) :
    returnedBuffer s = if op = .read ∨ op = .writeRead then some s.inBuf else none := by
  cases op <;> simp [returnedBuffer, ho, Op.hasIn]

/-- The return with a result hands over that one result (R197, R250). -/
theorem step_done_reply {s : State} {op : Op} {r : Result} (hm : s.mode = .running) (hp : s.pc = .done) (ho : s.op = some op)
    (hr : s.result = some r) :
    step s = .next { s with
      delivered := s.delivered ++ [⟨r, if op = .read ∨ op = .writeRead then some s.inBuf else none⟩],
      op := none, err := none, params := none, pc := .idle } := by
  rw [step_done hm hp, finish, replies, hr, ← returnedBuffer_of_op ho]

/-! ### STATUS_RD (R184, R186, R188, R191, R196) -/

/-- A snapshot with an abort kind takes the abort, whatever the awaited flag (R193). -/
theorem poll_of_abort {v : Word} {e : TransactionError} (hc : classify v = some e) (awaited : Bool) (ready stay : ControlPoint)
    (t : State) : poll v awaited ready stay t = takeAbort e t := by
  simp [poll, hc]

/-- A snapshot with no abort kind goes on by the awaited flag (R193). -/
theorem poll_of_no_abort {v : Word} (hc : classify v = none) (awaited : Bool) (ready stay : ControlPoint) (t : State) :
    poll v awaited ready stay t = { t with pc := if awaited then ready else stay } := by
  simp [poll, hc]

/-- Where a poll leaves control (R193). -/
theorem poll_pc_cases (v : Word) (awaited : Bool) (ready stay : ControlPoint) (t : State) :
    (poll v awaited ready stay t).pc = .abortClear ∨ ((poll v awaited ready stay t).pc = ready ∧ awaited = true) ∨
      (poll v awaited ready stay t).pc = stay := by
  rcases poll_cases v awaited ready stay t with ⟨e, _, h⟩ | ⟨_, ha, h⟩ | ⟨_, _, h⟩ <;> rw [h]
  · exact .inl rfl
  · exact .inr (.inl ⟨rfl, ha⟩)
  · exact .inr (.inr rfl)

section
variable {s : State}

theorem exec_statusRd_addrWait (hp : s.pc = .addrWait) :
    exec .statusRd s =
      .next { portRead statusOff s with pc := if flagStartPending (draw s) then .addrWait else .addrProg } := by
  simp [exec, execStatusRd, hp]

theorem exec_statusRd_txPoll (hp : s.pc = .txPoll) :
    exec .statusRd s = .next (poll (draw s) (flagTxe (draw s)) .txData .txPoll (portRead statusOff s)) := by
  simp [exec, execStatusRd, hp]

theorem exec_statusRd_tcPoll (hp : s.pc = .tcPoll) :
    exec .statusRd s = .next (poll (draw s) (flagTc (draw s)) (if s.op = some .write then .stopIssue else .restartProg) .tcPoll
      (portRead statusOff s)) := by
  simp [exec, execStatusRd, hp]

theorem exec_statusRd_rxPoll (hp : s.pc = .rxPoll) :
    exec .statusRd s = .next (poll (draw s) (flagRxne (draw s)) .rxData .rxPoll (portRead statusOff s)) := by
  simp [exec, execStatusRd, hp]

theorem exec_statusRd_flushRead (hp : s.pc = .flushRead) :
    exec .statusRd s = .next { portRead statusOff s with pc := if flagTxis (draw s) then .flushDummy else .flushTxe } := by
  simp [exec, execStatusRd, hp]

/-! ### The DATA accesses (R187, R192, R196) -/

theorem exec_dataWr_txData (hp : s.pc = .txData) (hi : s.i < s.outLen) :
    exec .dataWr s = .next { portWrite dataOff (dataWord (memRead s.outBuf s.i)) s with
      i := s.i + 1, pc := if s.i + 1 = s.outLen then .tcPoll else .txPoll } := by
  simp [exec, execDataWr, hp, hi]

theorem exec_dataWr_flushDummy (hp : s.pc = .flushDummy) :
    exec .dataWr s = .next (complete (.err .notAcknowledge) (portWrite dataOff dummyWord s)) := by
  simp [exec, execDataWr, hp]

theorem exec_dataRd_rxData (hp : s.pc = .rxData) (hj : s.j < s.inLen) :
    exec .dataRd s = .next { portRead dataOff s with
      inBuf := memWrite s.inBuf s.j (dataByte (draw s)), j := s.j + 1
      pc := if s.j + 1 = s.inLen then .done else .rxPoll
      result := if s.j + 1 = s.inLen then some .ok else s.result } := by
  by_cases hl : s.j + 1 = s.inLen <;> simp [exec, execDataRd, hp, hj, hl, complete]

/-! ### CTRL_WR (R185, R189, R190) -/

theorem exec_ctrlWr_startWrite (hp : s.pc = .addrProg) (ho : s.op = some .write ∨ s.op = some .writeRead) :
    exec .ctrlWr s = .next { portWrite ctrlOff (startWriteWord s.addr s.outLen) s with pc := .txPoll } := by
  rcases ho with ho | ho <;> simp [exec, execCtrlWr, ctrlOperand, hp, ho]

theorem exec_ctrlWr_startRead (hp : s.pc = .addrProg) (ho : s.op = some .read) :
    exec .ctrlWr s = .next { portWrite ctrlOff (startReadWord s.addr s.inLen) s with pc := .rxPoll } := by
  simp [exec, execCtrlWr, ctrlOperand, hp, ho]

theorem exec_ctrlWr_stopIssue (hp : s.pc = .stopIssue) :
    exec .ctrlWr s = .next (complete .ok (portWrite ctrlOff stopWord s)) := by
  simp [exec, execCtrlWr, ctrlOperand, hp]

theorem exec_ctrlWr_restartProg (hp : s.pc = .restartProg) :
    exec .ctrlWr s = .next { portWrite ctrlOff (startReadWord s.addr s.inLen) s with pc := .rxPoll } := by
  simp [exec, execCtrlWr, ctrlOperand, hp]

/-- The STOP word as a number (R189, R198). -/
theorem stopWord_eq : stopWord = 0x00004000 := by decide

/-! ### The writes of the abort path (R195, R196) -/

/-- A bus error or arbitration loss is the result once its flag is cleared (R195). -/
theorem exec_clearWr_error {e : TransactionError} {v : Word} (hp : s.pc = .abortClear) (he : s.err = some e)
    (hv : clearOperand e = some v) (hne : e ≠ .notAcknowledge) :
    exec .clearWr s = .next (complete (.err e) (portWrite clearOff v s)) := by
  simp [exec, execClearWr, hp, he, hv, hne]

/-- A NACK goes on to the flush once its flags are cleared (R195). -/
theorem exec_clearWr_nack (hp : s.pc = .abortClear) (he : s.err = some .notAcknowledge) :
    exec .clearWr s = .next { portWrite clearOff clrNack s with pc := .flushRead } := by
  simp [exec, execClearWr, hp, he, clearOperand]

theorem exec_statusWr_flushTxe (hp : s.pc = .flushTxe) :
    exec .statusWr s = .next (complete (.err .notAcknowledge) (portWrite statusOff txeFlush s)) := by
  simp [exec, execStatusWr, hp]

end

/-! ### The way to TX_DATA (R186, R187) -/

/-- Only the poll of TX_POLL that read TXE = 1 goes to TX_DATA (R186). -/
theorem execStatusRd_pc_txData {s t : State} (h : execStatusRd s = .next t) (ht : t.pc = .txData) :
    s.pc = .txData ∨ (s.pc = .txPoll ∧ flagTxe (draw s) = true) := by
  rcases execStatusRd_cases h with ⟨_, _, rfl⟩ | ⟨_, _, rfl⟩ | ⟨hp, rfl⟩ | ⟨_, rfl⟩ | ⟨_, rfl⟩ | ⟨_, _, rfl⟩ | ⟨_, _, rfl⟩ |
    ⟨_, rfl⟩
  case inr.inr.inl =>
    rcases poll_pc_cases (draw s) (flagTxe (draw s)) .txData .txPoll (portRead statusOff s) with hq | ⟨_, hv⟩ | hq
    · simp [hq] at ht
    · exact .inr ⟨hp, hv⟩
    · simp [hq] at ht
  case inr.inr.inr.inl =>
    rcases poll_pc_cases (draw s) (flagTc (draw s)) (if s.op = some .write then .stopIssue else .restartProg) .tcPoll
      (portRead statusOff s) with hq | ⟨hq, _⟩ | hq
    · simp [hq] at ht
    · rw [hq] at ht
      split at ht <;> simp at ht
    · simp [hq] at ht
  case inr.inr.inr.inr.inl =>
    rcases poll_pc_cases (draw s) (flagRxne (draw s)) .rxData .rxPoll (portRead statusOff s) with hq | ⟨hq, _⟩ | hq <;>
      simp [hq] at ht
  case inr.inr.inr.inr.inr.inr.inr => exact .inl ht
  all_goals simp at ht

/-- A transaction's dispatch does not lead to TX_DATA (R181 to R183). -/
theorem startTransaction_pc_txData {op : Op} {a : BitVec 7} {m n : Nat} {s : State}
    (ht : (startTransaction op a m n s).pc = .txData) : s.pc = .txData := by
  rcases startTransaction_cases op a m n s with ⟨_, h⟩ | ⟨_, _, h⟩ | ⟨_, _, h⟩ <;> rw [h] at ht
  · exact ht
  · simp at ht
  · simp at ht

/-- An instruction leaves control at TX_DATA only where control was there and the instruction was not the DATA write, or at a poll
that read TXE = 1 (R186, R187). -/
theorem exec_pc_txData {i : Instr} {s t : State} (h : exec i s = .next t) (ht : t.pc = .txData) :
    (s.pc = .txData ∧ i ≠ .dataWr) ∨ (s.pc = .txPoll ∧ flagTxe (draw s) = true) := by
  cases i <;> simp only [exec] at h
  case statusRd => exact (execStatusRd_pc_txData h ht).imp_left fun hp => ⟨hp, by simp⟩
  case dataWr =>
    rcases execDataWr_cases h with ⟨_, _, rfl⟩ | ⟨_, rfl⟩ | ⟨hne, _, rfl⟩
    · dsimp only at ht
      split at ht <;> simp at ht
    · simp at ht
    · exact absurd ht hne
  case calculate | classify =>
    injection h with h
    simp [← h] at ht
  all_goals refine .inl ⟨?_, by simp⟩
  case write | read | writeRead =>
    injection h with h
    exact startTransaction_pc_txData (h ▸ ht)
  case init => rcases execInit_cases h with ⟨p, _, rfl⟩ | ⟨_, rfl⟩ <;> cases ht
  case dataRd =>
    rcases execDataRd_cases h with ⟨_, _, u, rfl, ⟨_, rfl⟩ | ⟨_, rfl⟩⟩ | ⟨_, rfl⟩
    case inr => exact ht
    all_goals simp at ht
  case ctrlWr =>
    rcases execCtrlWr_cases h with ⟨_, _, rfl⟩ | ⟨_, _, rfl⟩ | ⟨_, rfl⟩ | ⟨_, rfl⟩ | ⟨_, rfl⟩
    case inr.inr.inr.inr => exact ht
    all_goals simp at ht
  case timingWr =>
    rcases execTimingWr_cases h with ⟨p, _, _, rfl⟩ | ⟨_, rfl⟩
    · simp at ht
    · exact ht
  case statusWr =>
    rcases execStatusWr_cases h with ⟨_, rfl⟩ | ⟨_, rfl⟩
    · simp at ht
    · exact ht
  case clearWr =>
    rcases execClearWr_cases h with ⟨e, v, _, _, _, ⟨_, rfl⟩ | ⟨_, rfl⟩⟩ | ⟨_, rfl⟩
    case inr => exact ht
    all_goals simp at ht
  case delayWr =>
    rcases execDelayWr_cases h with ⟨p, _, _, rfl⟩ | ⟨_, rfl⟩
    · simp at ht
    · exact ht

/-- A step to TX_DATA is a poll that read TXE = 1 (R186, R187). -/
theorem step_pc_txData {s t : State} (h : step s = .next t) (ht : t.pc = .txData) :
    s.pc = .txPoll ∧ flagTxe (draw s) = true := by
  obtain ⟨-, ⟨q, rest, i, hp, _, _, h⟩ | ⟨q, rest, r, hp, _, _, rfl⟩ | ⟨_, rfl⟩ | ⟨i, hi, h⟩⟩ := step_next_cases h
  · rcases exec_pc_txData h ht with ⟨hq, _⟩ | ⟨hq, _⟩ <;> simp [hp] at hq
  · simp [hp] at ht
  · simp at ht
  · rcases exec_pc_txData h ht with ⟨hp, hne⟩ | hpoll
    · rw [hp] at hi
      exact absurd (Option.some.inj hi).symm hne
    · exact hpoll

/-! ### The abort path (R194 to R197) -/

/-- A step that completes the operation, and the return (R197). -/
theorem runsTo_complete {s u : State} {op : Op} {r : Result} (hs : step s = .next (complete r u)) (hm : u.mode = .running)
    (ho : u.op = some op) :
    runsTo 2 s { u with
      result := some r
      delivered := u.delivered ++ [⟨r, if op = .read ∨ op = .writeRead then some u.inBuf else none⟩]
      op := none, err := none, params := none, pc := .idle } :=
  runsTo_succ hs (runsTo_one (step_done_reply (s := complete r u) hm rfl ho rfl))

section
variable {s : State} {op : Op} (hm : s.mode = .running) (ho : s.op = some op)
include hm ho

/-- After a bus error or arbitration loss: the CLEAR write and the return (R195, R206). -/
theorem runsTo_clearError {e : TransactionError} {v : Word} (hp : s.pc = .abortClear) (he : s.err = some e)
    (hv : clearOperand e = some v) (hne : e ≠ .notAcknowledge) :
    runsTo 2 s { s with
      hist := s.hist ++ [.wr clearOff v], result := some (.err e)
      delivered := s.delivered ++ [⟨.err e, if op = .read ∨ op = .writeRead then some s.inBuf else none⟩]
      op := none, err := none, params := none, pc := .idle } :=
  runsTo_complete ((step_access (i := .clearWr) hm (by rw [hp]; rfl)).trans (exec_clearWr_error hp he hv hne)) hm ho

/-- The flush and the return: the fresh STATUS read, then the dummy byte where TXIS reads 1 and the STATUS write where it does not
(R196). -/
theorem runsTo_flush {v : Word} (hp : s.pc = .flushRead) (hv : draw s = v) :
    runsTo 3 s { s with
      hist := s.hist ++ [.rd statusOff v, if flagTxis v then .wr dataOff dummyWord else .wr statusOff txeFlush]
      env := s.env.tail, draws := s.draws + 1, result := some (.err .notAcknowledge)
      delivered := s.delivered ++ [⟨.err .notAcknowledge, if op = .read ∨ op = .writeRead then some s.inBuf else none⟩]
      op := none, err := none, params := none, pc := .idle } := by
  subst hv
  have hread := (step_access (i := .statusRd) hm (by rw [hp]; rfl)).trans (exec_statusRd_flushRead hp)
  cases hflag : flagTxis (draw s) <;> rw [hflag] at hread
  · have hwrite := (step_access (i := .statusWr) (s := { portRead statusOff s with pc := .flushTxe }) hm rfl).trans
      (exec_statusWr_flushTxe rfl)
    simpa [portWrite] using runsTo_succ hread (runsTo_complete hwrite hm ho)
  · have hwrite := (step_access (i := .dataWr) (s := { portRead statusOff s with pc := .flushDummy }) hm rfl).trans
      (exec_dataWr_flushDummy rfl)
    simpa [portWrite] using runsTo_succ hread (runsTo_complete hwrite hm ho)

/-- After a NACK: the CLEAR write, the flush and the return (R195, R196, R207). -/
theorem runsTo_clearNack (hp : s.pc = .abortClear) (he : s.err = some .notAcknowledge) :
    runsTo 4 s { s with
      hist := s.hist ++ [.wr clearOff clrNack, .rd statusOff (draw s),
        if flagTxis (draw s) then .wr dataOff dummyWord else .wr statusOff txeFlush]
      env := s.env.tail, draws := s.draws + 1, result := some (.err .notAcknowledge)
      delivered := s.delivered ++ [⟨.err .notAcknowledge, if op = .read ∨ op = .writeRead then some s.inBuf else none⟩]
      op := none, err := none, params := none, pc := .idle } := by
  have hclear := (step_access (i := .clearWr) hm (by rw [hp]; rfl)).trans (exec_clearWr_nack hp he)
  simpa [portWrite] using runsTo_succ hclear
    (runsTo_flush (s := { portWrite clearOff clrNack s with pc := .flushRead }) (v := draw s) hm ho rfl rfl)

end

/-! ### Polls that go on (R193, R296) -/

/-- An answer that does not end the polling is read and nothing else happens. -/
theorem step_poll_stays {s : State} (hm : s.mode = .running) (hp : isPoll s.pc = true) (hv : pollEnds s.pc (draw s) = false) :
    step s = .next (portRead statusOff s) := by
  rcases step_poll hm hp with ⟨_, hs⟩ | ⟨hends, _⟩
  · exact hs
  · simp [hv] at hends

/-- While no answer ends the polling, a poll makes one read for each and stays. -/
theorem runsTo_poll_stays {answers rest : List Word} {s : State} (hm : s.mode = .running) (hp : isPoll s.pc = true)
    (he : s.env = answers ++ rest) (hv : ∀ v ∈ answers, pollEnds s.pc v = false) :
    runsTo answers.length s { s with
      hist := s.hist ++ answers.map (PortEvent.rd statusOff), env := rest, draws := s.draws + answers.length } := by
  induction answers generalizing s with
  | nil =>
    obtain rfl : s.env = rest := he
    simpa using runsTo_zero s
  | cons v answers ih =>
    obtain ⟨hfirst, hothers⟩ := List.forall_mem_cons.mp hv
    have hstep := step_poll_stays hm hp (by rwa [draw_of_env_cons he])
    rw [portRead_of_env_cons _ he] at hstep
    simpa [Nat.add_assoc, Nat.add_comm 1] using runsTo_succ hstep (ih hm hp rfl hothers)

/-! ### A whole WRITE and a whole READ (R200, R201) -/

section
variable {s : State} {v : Word} {rest : List Word} (hm : s.mode = .running)
include hm

/-- TC_POLL of a WRITE goes on to the STOP when the transfer is complete (R188). -/
theorem step_tcPoll_stop (hp : s.pc = .tcPoll) (ho : s.op = some .write) (he : s.env = v :: rest)
    (hv : ReadyAnswer flagTc v) :
    step s = .next { s with
      hist := s.hist ++ [.rd statusOff v], env := rest, draws := s.draws + 1, pc := .stopIssue } := by
  rw [step_access (i := .statusRd) hm (by rw [hp]; rfl), exec_statusRd_tcPoll hp, draw_of_env_cons he, poll_of_ready hv,
    if_pos ho, portRead_of_env_cons _ he]

/-- The STOP and the return (R189). -/
theorem runsTo_stop (hp : s.pc = .stopIssue) (ho : s.op = some .write) :
    runsTo 2 s { s with
      hist := s.hist ++ [.wr ctrlOff stopWord], result := some .ok, delivered := s.delivered ++ [⟨.ok, none⟩]
      op := none, err := none, params := none, pc := .idle } :=
  runsTo_complete ((step_access (i := .ctrlWr) hm (by rw [hp]; rfl)).trans (exec_ctrlWr_stopIssue hp)) hm ho

/-- The START of a READ (R185). -/
theorem step_startRead (hp : s.pc = .addrProg) (ho : s.op = some .read) :
    step s = .next { portWrite ctrlOff (startReadWord s.addr s.inLen) s with pc := .rxPoll } :=
  (step_access (i := .ctrlWr) hm (by rw [hp]; rfl)).trans (exec_ctrlWr_startRead hp ho)

end

section
variable {s : State} {q : Request} {rest : List Request} {i : Instr} {a : BitVec 7} {m n : Nat} {v : Word} {more : List Word}

/-- A whole WRITE: the write phase, the completion poll and the STOP (R200, R204). -/
theorem runsTo_write (w : Nat → Word) {c : Word} (h : Asked s q rest i .write a m n) (hpos : 0 < m)
    (he : s.env = v :: ((List.range m).map w ++ c :: more)) (hv : flagStartPending v = false)
    (hw : ∀ k < m, ReadyAnswer flagTxe (w k)) (hc : ReadyAnswer flagTc c) :
    runsTo (2 * m + 6) s { accept i q rest s with
      op := none, addr := a, outLen := m, inLen := n, i := m, j := 0, err := none, params := none, result := some .ok
      delivered := s.delivered ++ [⟨.ok, none⟩]
      hist := s.hist ++ ([.rd statusOff v, .wr ctrlOff (startWriteWord a m)] ++
        sendEvents (accept i q rest s).outBuf w (List.range m) ++ [.rd statusOff c, .wr ctrlOff stopWord])
      env := more, draws := s.draws + (m + 2) } := by
  have hrun := runsTo_add (runsTo_writePhase w h (.inl rfl) hpos he hv hw)
    (runsTo_succ (step_tcPoll_stop h.mode rfl rfl rfl hc) (runsTo_stop h.mode rfl rfl))
  simpa [h.pc, Nat.add_assoc] using hrun

/-- A whole READ: the address wait, the START and the read phase (R201, R204). -/
theorem runsTo_read (x d : Nat → Word) (h : Asked s q rest i .read a m n) (hpos : 0 < n)
    (he : s.env = v :: (((List.range n).flatMap fun k => [x k, d k]) ++ more)) (hv : flagStartPending v = false)
    (hx : ∀ k < n, ReadyAnswer flagRxne (x k)) :
    runsTo (2 * n + 4) s { accept i q rest s with
      op := none, addr := a, outLen := m, inLen := n, i := 0, j := n, err := none, params := none, result := some .ok
      inBuf := storeBytes d (List.range n) (accept i q rest s).inBuf
      delivered := s.delivered ++ [⟨.ok, some (storeBytes d (List.range n) (accept i q rest s).inBuf)⟩]
      hist := s.hist ++ ([.rd statusOff v, .wr ctrlOff (startReadWord a n)] ++ receiveEvents x d (List.range n))
      env := more, draws := s.draws + (2 * n + 1) } := by
  have hrun := runsTo_add (runsTo_addrProg h he hv) (runsTo_succ (step_startRead h.mode rfl rfl)
    (runsTo_readPhase x d h.mode rfl rfl rfl rfl rfl hpos rfl hx))
  rw [show 2 * n + 4 = 2 + (2 * n + 1 + 1) by omega, show s.draws + (2 * n + 1) = s.draws + 1 + 2 * n by omega]
  simpa [portWrite, h.pc] using hrun

end

end Sys2Proof.Machine

namespace Sys2Proof.Proofs

open Sys2Proof Sys2Proof.Machine

/-- Settles O8: the step is `exec` of the decoded operation at the state with the request accepted. -/
theorem stepRunsTheHostOperation : Obligations.StepRunsTheHostOperation := fun s q rest i hm hp hq hd =>
  ⟨accept i q rest s, step_idle_run hm hp hq hd, rfl, by cases i <;> rfl, by cases i <;> rfl⟩

/-- Settles O11: DONE is the return, with a result to hand over. -/
theorem doneHandsOverOneResult : Obligations.DoneHandsOverOneResult := fun _ _ _ hm hp ho hr => step_done_reply hm hp ho hr

/-- Settles O34: the configuration is looked at before the lengths. -/
theorem unconfiguredTransactionRefused : Obligations.UnconfiguredTransactionRefused := fun _ _ _ _ hc =>
  ⟨exec_unconfigured rfl hc, exec_unconfigured rfl hc, exec_unconfigured rfl hc⟩

/-- Settles O35: the length precondition fails exactly outside 1..255, for each buffer the operation has. -/
theorem badLengthGivesLengthError : Obligations.BadLengthGivesLengthError := by
  intro s addr m n hc
  refine ⟨fun hm => ⟨_, exec_badLength rfl hc ((lengthsOk_eq_false_iff ..).mpr (.inl ⟨rfl, hm⟩)), rfl⟩,
    fun hn => ⟨_, exec_badLength rfl hc ((lengthsOk_eq_false_iff ..).mpr (.inr ⟨rfl, hn⟩)), rfl⟩,
    fun hmn => ⟨_, exec_badLength rfl hc ((lengthsOk_eq_false_iff ..).mpr ?_), rfl⟩, ?_⟩
  · exact (or_assoc.mpr hmn).imp (⟨rfl, ·⟩) (⟨rfl, ·⟩)
  · intro hm1 hm2 hn1 hn2 i hi
    rcases hi with rfl | rfl | rfl
    · exact ⟨_, exec_setup rfl hc ((lengthsOk_iff ..).mpr ⟨fun _ => ⟨hm1, hm2⟩, nofun⟩), rfl, rfl⟩
    · exact ⟨_, exec_setup rfl hc ((lengthsOk_iff ..).mpr ⟨nofun, fun _ => ⟨hn1, hn2⟩⟩), rfl, rfl⟩
    · exact ⟨_, exec_setup rfl hc ((lengthsOk_iff ..).mpr ⟨fun _ => ⟨hm1, hm2⟩, fun _ => ⟨hn1, hn2⟩⟩), rfl, rfl⟩

/-- Settles O36: of a configured transaction's two dispatches only the failed length completes it. -/
theorem lengthErrorCountsNoByte : Obligations.LengthErrorCountsNoByte := by
  rintro s t addr m n hc - ht (h | h | h)
  · exact exec_done_counts_no_byte rfl hc ht h
  · exact exec_done_counts_no_byte rfl hc ht h
  · exact exec_done_counts_no_byte rfl hc ht h

/-- Settles O37: a descriptor that decodes is the encoding of its instruction, whose fields are the descriptor's; and lengths in
range pass the precondition. -/
theorem transactionSetup : Obligations.TransactionSetup := by
  refine ⟨fun d addr m n => ⟨fun hd => ?_, fun hd => ?_, fun hd => ?_⟩, fun s addr m n hc => ⟨?_, ?_, ?_⟩⟩
  · obtain rfl : ⟨descriptorWord 0x10 addr, m, 0⟩ = d := Encoded.cmd.inj (wellFormed_and_encode_of_decode hd).2
    exact ⟨(descriptorWord_div_256 _ addr).symm, rfl⟩
  · obtain rfl : ⟨descriptorWord 0x11 addr, 0, n⟩ = d := Encoded.cmd.inj (wellFormed_and_encode_of_decode hd).2
    exact ⟨(descriptorWord_div_256 _ addr).symm, rfl⟩
  · obtain rfl : ⟨descriptorWord 0x12 addr, m, n⟩ = d := Encoded.cmd.inj (wellFormed_and_encode_of_decode hd).2
    exact ⟨(descriptorWord_div_256 _ addr).symm, rfl, rfl⟩
  · exact fun hm1 hm2 => ⟨_, exec_setup rfl hc ((lengthsOk_iff ..).mpr ⟨fun _ => ⟨hm1, hm2⟩, nofun⟩), rfl⟩
  · exact fun hn1 hn2 => ⟨_, exec_setup rfl hc ((lengthsOk_iff ..).mpr ⟨nofun, fun _ => ⟨hn1, hn2⟩⟩), rfl⟩
  · exact fun hm1 hm2 hn1 hn2 =>
      exec_setup rfl hc ((lengthsOk_iff ..).mpr ⟨fun _ => ⟨hm1, hm2⟩, fun _ => ⟨hn1, hn2⟩⟩)

/-- Settles O39: the meaning of the STATUS read at ADDR_WAIT. -/
theorem addressWait : Obligations.AddressWait := fun _ hp => exec_statusRd_addrWait hp

/-- Settles O40: the START word of either direction, as a number. -/
theorem addressProgram : Obligations.AddressProgram := by
  intro s hp
  refine ⟨fun ho hm => ?_, fun ho hn => ?_⟩
  · rw [exec_ctrlWr_startWrite hp ho, (start_words s.addr s.outLen hm).1]
    rfl
  · rw [exec_ctrlWr_startRead hp ho, (start_words s.addr s.inLen hn).2]
    rfl

/-- Settles O41: what each poll does with its snapshot, an abort first. -/
theorem dataAndCompletionPolls : Obligations.DataAndCompletionPolls := by
  refine fun s => ⟨?_, fun hp hc => ?_, fun hp hc => ?_, fun hp hc => ?_⟩
  · rintro e (hp | hp | hp) hc
    · rw [exec_statusRd_txPoll hp, poll_of_abort hc]
      rfl
    · rw [exec_statusRd_tcPoll hp, poll_of_abort hc]
      rfl
    · rw [exec_statusRd_rxPoll hp, poll_of_abort hc]
      rfl
  · rw [exec_statusRd_txPoll hp, poll_of_no_abort hc]
    rfl
  · rw [exec_statusRd_tcPoll hp, poll_of_no_abort hc]
    rfl
  · rw [exec_statusRd_rxPoll hp, poll_of_no_abort hc]
    rfl

/-- Settles O42: the DATA write at TX_DATA, and the one way there. -/
theorem sendOneByte : Obligations.SendOneByte := by
  refine ⟨fun s hp hi => ?_, fun _ _ hs ht => step_pc_txData hs ht⟩
  rw [exec_dataWr_txData hp hi, dataWord_eq_ofNat]
  rfl

/-- Settles O43: the two CTRL writes that end a write phase. -/
theorem stopAndRestart : Obligations.StopAndRestart := by
  refine fun s => ⟨fun hp => ?_, fun hp hn => ?_⟩
  · rw [exec_ctrlWr_stopIssue hp, stopWord_eq]
    rfl
  · rw [exec_ctrlWr_restartProg hp, (start_words s.addr s.inLen hn).2]
    rfl

/-- Settles O44: the buffer's read after a write, at the index written and elsewhere. -/
theorem storeOneByte : Obligations.StoreOneByte := by
  intro s hp hj hwf
  refine ⟨_, exec_dataRd_rxData hp hj, rfl, rfl, rfl, memWrite_wf _ _ hwf, ?_, fun a ha => memRead_memWrite_other _ _ ha⟩
  rw [memRead_memWrite_same _ _ hwf, dataByte_toNat]

/-- Settles O46: the CLEAR word of each kind. -/
theorem abortClear : Obligations.AbortClear := fun _ hp =>
  ⟨fun he => exec_clearWr_error hp he rfl (by decide), fun he => exec_clearWr_error hp he rfl (by decide),
    fun he => exec_clearWr_nack hp he⟩

/-- Settles O47: the three accesses of the flush. -/
theorem nackFlush : Obligations.NackFlush := fun _ =>
  ⟨fun hp => exec_statusRd_flushRead hp, fun hp => exec_dataWr_flushDummy hp, fun hp => exec_statusWr_flushTxe hp⟩

/-- Settles O49: the CLEAR write of the abort kind, the flush after a NACK, and the return. -/
theorem abortRunsToIdle : Obligations.AbortRunsToIdle := by
  rintro s op _ hm hp ho rfl
  refine ⟨?_, fun he => runsTo_clearNack hm ho hp he⟩
  rintro e v (⟨rfl, rfl⟩ | ⟨rfl, rfl⟩) he
  · exact runsTo_clearError hm ho hp he rfl (by decide)
  · exact runsTo_clearError hm ho hp he rfl (by decide)

/-- Settles O50: none of the answers ends the polling, at whichever poll the engine stands. -/
theorem hangsAreKept : Obligations.HangsAreKept := by
  rintro answers rest s hm he (⟨hp, hv⟩ | ⟨hp, hv⟩ | ⟨hp, hv⟩ | ⟨hp, hv⟩) <;>
    refine runsTo_poll_stays hm (by rw [hp]; rfl) he fun v hmem => ?_ <;> rw [hp]
  · simpa [pollEnds, flagStartPending] using hv v hmem
  · simpa [pollEnds, flagTxe] using hv v hmem
  · simpa [pollEnds, flagTc] using hv v hmem
  · simpa [pollEnds, flagRxne] using hv v hmem

/-- Settles O51: the descriptor is the encoding of its WRITE, so the run is that of the write phase and the STOP. -/
theorem writeRunsToOk : Obligations.WriteRunsToOk := by
  intro s addr n ob ib rest a0 c x more hm hp hcfg hn1 hn2 hq he ha0 hx hc hct
  have hnw : (BitVec.ofNat 32 n).toNat = n := Nat.mod_eq_of_lt (by omega)
  have hasked : Asked s _ rest (.write addr (BitVec.ofNat 32 n)) .write addr n 0 :=
    { mode := hm, pc := hp, inbox := hq, configured := hcfg
      decoded := decode_encode (.write addr (BitVec.ofNat 32 n))
      transaction := by simp only [transactionOf, hnw]
      lengths := (lengthsOk_iff ..).mpr ⟨fun _ => ⟨hn1, hn2⟩, nofun⟩ }
  refine ⟨_, runsTo_write x hasked hn1 he ha0 hx ⟨hc, hct⟩, hm, hp, rfl, rfl, rfl, rfl, rfl, rfl, rfl, ?_⟩
  simp [sendEvents, takesOut, (start_words addr n hn2).1, stopWord_eq, dataWord_eq_ofNat, statusOff, ctrlOff, dataOff]

/-- Settles O52: the descriptor is the encoding of its READ, so the run is that of the START and the read phase. -/
theorem readRunsToOk : Obligations.ReadRunsToOk := by
  intro s addr n ob ib rest a0 x d more hm hp hcfg hn1 hn2 hwf hq he ha0 hx
  have hnw : (BitVec.ofNat 32 n).toNat = n := Nat.mod_eq_of_lt (by omega)
  have hasked : Asked s _ rest (.read addr (BitVec.ofNat 32 n)) .read addr 0 n :=
    { mode := hm, pc := hp, inbox := hq, configured := hcfg
      decoded := decode_encode (.read addr (BitVec.ofNat 32 n))
      transaction := by simp only [transactionOf, hnw]
      lengths := (lengthsOk_iff ..).mpr ⟨nofun, fun _ => ⟨hn1, hn2⟩⟩ }
  refine ⟨_, runsTo_read x d hasked hn1 he ha0 hx, hm, hp, rfl, rfl, rfl, rfl, rfl, rfl, rfl, ?_, ?_, ?_⟩
  · intro k hk
    simp [takesIn, memRead_storeBytes d hwf, hk, dataByte_toNat]
  · intro k hk
    simp [takesIn, memRead_storeBytes d hwf, hk]
  · simp [receiveEvents, (start_words addr n hn2).2, statusOff, ctrlOff, dataOff]

end Sys2Proof.Proofs
end

section
/-! The error classifier (43_error_classifier): what it answers by the three abort flags, the mask of those flags, and CLASSIFY
(R240 to R242). -/

namespace Sys2Proof.Machine

/-! ### The truth table -/

section
variable {s t : Word}

/-- BERR wins (R240). -/
theorem classify_berr (hb : flagBerr s = true) : classify s = some .busError := by
  simp [classify, hb]

/-- ARLO is next (R240). -/
theorem classify_arlo (hb : flagBerr s = false) (ha : flagArlo s = true) : classify s = some .arbitrationLost := by
  simp [classify, hb, ha]

/-- NACKF is last (R240). -/
theorem classify_nackf (hb : flagBerr s = false) (ha : flagArlo s = false) (hn : flagNackf s = true) :
    classify s = some .notAcknowledge := by
  simp [classify, hb, ha, hn]

/-- No abort exactly where the three flags are 0 (R242 (c)). -/
theorem classify_eq_none_iff :
    classify s = none ↔ flagBerr s = false ∧ flagArlo s = false ∧ flagNackf s = false := by
  unfold classify
  cases flagBerr s <;> cases flagArlo s <;> cases flagNackf s <;> simp

/-- Only the three flags are read (R242 (b)). -/
theorem classify_congr (hb : flagBerr s = flagBerr t) (ha : flagArlo s = flagArlo t) (hn : flagNackf s = flagNackf t) :
    classify s = classify t := by
  simp only [classify, hb, ha, hn]

end

/-- LengthError is not a status condition (R242 (d)). -/
theorem classify_ne_lengthError (s : Word) : classify s ≠ some .lengthError := by
  rcases classify_cases s with h | h | h | h <;> simp [h]

/-! ### The mask of the abort flags -/

/-- The word 0x310 has exactly the bits 8, 9 and 4 (R42). -/
theorem getLsbD_abortMask : ∀ i < 32, (0x310#32).getLsbD i = (i == 8 || i == 9 || i == 4) := by decide

/-- A word is disjoint from the mask exactly where the three flags are 0. -/
theorem and_abortMask_eq_zero_iff (m : Word) :
    m &&& 0x310#32 = 0#32 ↔ m.getLsbD 8 = false ∧ m.getLsbD 9 = false ∧ m.getLsbD 4 = false := by
  constructor
  · intro h
    have hbit (i : Nat) (hi : i < 32) : (m.getLsbD i && (i == 8 || i == 9 || i == 4)) = false := by
      rw [← getLsbD_abortMask i hi, ← BitVec.getLsbD_and, h, BitVec.getLsbD_zero]
    exact ⟨by simpa using hbit 8, by simpa using hbit 9, by simpa using hbit 4⟩
  · rintro ⟨h8, h9, h4⟩
    refine BitVec.eq_of_getLsbD_eq fun i hi => ?_
    rw [BitVec.getLsbD_and, getLsbD_abortMask i hi, BitVec.getLsbD_zero]
    by_cases hflag : i = 8 ∨ i = 9 ∨ i = 4
    · rcases hflag with rfl | rfl | rfl <;> simp only [h8, h9, h4, Bool.false_and]
    · simp only [not_or] at hflag
      simp [hflag]

/-- Flipping bits outside the mask changes nothing (R242 (e)). -/
theorem classify_xor {m : Word} (s : Word) (hm : m &&& 0x310#32 = 0#32) : classify (s ^^^ m) = classify s := by
  obtain ⟨h8, h9, h4⟩ := (and_abortMask_eq_zero_iff m).mp hm
  have hkept {i : Nat} (hi : m.getLsbD i = false) : (s ^^^ m).getLsbD i = s.getLsbD i := by
    rw [BitVec.getLsbD_xor, hi, Bool.xor_false]
  exact classify_congr (hkept h8) (hkept h9) (hkept h4)

/-! ### CLASSIFY -/

/-- The descriptor of CLASSIFY (R102, R104). -/
theorem decode_classify (v : Word) : decode (.cmd ⟨0x20, v, 0⟩) = .ok (.classify v) := decode_encode (.classify v)

/-- CLASSIFY completes with the snapshot's classification, configured or not (R241). -/
theorem exec_classify (v : Word) (s : State) :
    exec (.classify v) s = .next (complete (.classified (classify v)) { s with op := some .classify }) := rfl

end Sys2Proof.Machine

namespace Sys2Proof.Proofs

open Sys2Proof Sys2Proof.Machine

/-- Settles O31: the rows of the truth table, and the three flags as the bits of the mask 0x310. -/
theorem classifierPriority : Obligations.ClassifierPriority := fun s =>
  ⟨classify_berr, classify_arlo, classify_nackf, fun h8 h9 h4 => classify_eq_none_iff.mpr ⟨h8, h9, h4⟩,
    classify_eq_none_iff.trans (and_abortMask_eq_zero_iff s).symm, fun _ hm => classify_xor s hm, classify_ne_lengthError s⟩

/-- Settles O32: CLASSIFY's one step; each corner case is a row of the truth table. -/
theorem classifyResult : Obligations.ClassifyResult :=
  ⟨fun v s => ⟨decode_classify v, exec_classify v s⟩,
    classify_berr (by decide), classify_arlo (by decide) (by decide),
    classify_nackf (by decide) (by decide) (by decide), classify_eq_none_iff.mpr (by decide),
    classify_eq_none_iff.mpr (by decide), classify_berr (by decide)⟩

end Sys2Proof.Proofs
end

section
/-! Exceptions (60_exceptions): a running engine that is asked for something never faults and never sticks, and what the words of a
result tell apart. -/

namespace Sys2Proof.Machine

/-! ### The engine has a step, or a reason to have none -/

/-- At IDLE a running engine has a step for whatever the host asks: a descriptor that does not decode is refused, one that does is
run, and a dispatch moves no byte (R105, R180). -/
theorem exists_step_of_request {s : State} {q : Request} {rest : List Request} (hm : s.mode = .running) (hp : s.pc = .idle)
    (hq : s.inbox = q :: rest) : ∃ t, step s = .next t := by
  cases hd : decode (.cmd q.descriptor) with
  | error r => exact ⟨_, step_idle_reject hm hp hq hd⟩
  | ok i =>
    rw [step_idle_run hm hp hq hd]
    exact exec_next i (by simp [hp]) (by simp [hp])

/-- From the invariant the engine has a step, unless it is Refused or waits for the host at IDLE (R258, R259, R296, R297). -/
theorem State.Inv.step_cases {s : State} (hinv : s.Inv) :
    (∃ t, Machine.step s = .next t) ∨ (∃ r, s.mode = .refused r ∧ Machine.step s = .refused (.halted r)) ∨
      (s.mode = .running ∧ s.pc = .idle ∧ s.inbox = [] ∧ Machine.step s = .refused .noOperation) := by
  cases hm : s.mode with
  | refused r => exact .inr (.inl ⟨r, rfl, step_refused hm⟩)
  | running =>
    by_cases hp : s.pc = .idle
    · cases hq : s.inbox with
      | nil => exact .inr (.inr ⟨rfl, hp, rfl, step_idle_empty hm hp hq⟩)
      | cons q rest => exact .inl (exists_step_of_request hm hp hq)
    · exact .inl (hinv.exists_step hm hp)

/-! ### The words of a result -/

/-- The TIMING and DELAY words together hold every field of a parameter record (R39, R40, R107). -/
theorem timingParameters_eq_of_words {p p' : TimingParameters} (ht : timingWord p = timingWord p')
    (hd : delayWord p = delayWord p') : p = p' := by
  have htiming := timingWord_fields p
  have hdelay := delayWord_fields p
  rw [ht] at htiming
  rw [hd] at hdelay
  obtain ⟨hlow, hhigh, -, hprescaler⟩ := htiming
  obtain ⟨hsetup, hhold, -⟩ := hdelay
  obtain ⟨hlow', hhigh', -, hprescaler'⟩ := timingWord_fields p'
  obtain ⟨hsetup', hhold', -⟩ := delayWord_fields p'
  cases p
  cases p'
  rw [TimingParameters.mk.injEq]
  exact ⟨hprescaler.symm.trans hprescaler', hlow.symm.trans hlow', hhigh.symm.trans hhigh', hsetup.symm.trans hsetup',
    hhold.symm.trans hhold'⟩

/-- The words of a result with parameters (R252). -/
theorem okParams_words (p : TimingParameters) : (Result.okParams p).words = (0x00, timingWord p, delayWord p) := rfl

/-- Results with parameters that have the same words have the same parameters (R252). -/
theorem okParams_words_injective {p p' : TimingParameters} (h : (Result.okParams p).words = (Result.okParams p').words) :
    p = p' := by
  simp only [okParams_words, Prod.mk.injEq] at h
  obtain ⟨-, ht, hd⟩ := h
  exact timingParameters_eq_of_words ht hd

end Sys2Proof.Machine

namespace Sys2Proof.Proofs

open Sys2Proof Sys2Proof.Machine

/-- Settles O16: a step is a next state or one of the two reasons to have none, neither of which holds of a running engine with
something to do. -/
theorem noFaultAndNoStuckEngine : Obligations.NoFaultAndNoStuckEngine := by
  intro s hinv
  rcases hinv.step_cases with ⟨t, hs⟩ | ⟨r, hm, hs⟩ | ⟨-, hp, hq, hs⟩
  · exact ⟨by simp [hs], fun _ _ => ⟨t, hs⟩⟩
  · exact ⟨by simp [hs], fun hrunning => by simp [hm] at hrunning⟩
  · exact ⟨by simp [hs], fun _ hasked => by simp [hp, hq] at hasked⟩

/-- Settles O55: the parameters are read back off their two words, and the other rows are the table's. -/
theorem resultWords : Obligations.ResultWords :=
  ⟨okParams_words, fun _ _ h => okParams_words_injective h, rfl, rfl, rfl, rfl, rfl, rfl, rfl, rfl, rfl, rfl, rfl, rfl, rfl, rfl⟩

end Sys2Proof.Proofs
end
